-- ==== Sys2Proof/Word.lean ====
section
/-! DEFINITION. The word types of AES-CORE and the shape of a 16-byte block (00_scope.md R12, R14).

A block is kept as its four columns of four bytes, which is the layout R14 gives it: byte `i` is in
row `i mod 4` and column `i div 4`. How a column is packed into a 32-bit word is in
Machine/Block.lean. -/

namespace Sys2Proof

/-- R12: an unsigned 8-bit value, bits 7..0. -/
abbrev Byte := BitVec 8

/-- R12: an unsigned 32-bit value, bits 31..0. -/
abbrev Word := BitVec 32

/-- R14: one column of the state, its four bytes by row. -/
structure Column where
  r0 : Byte
  r1 : Byte
  r2 : Byte
  r3 : Byte
  deriving DecidableEq, Repr

/-- R14, R21: a block of exactly 16 bytes, its four columns in order. -/
structure Block where
  c0 : Column
  c1 : Column
  c2 : Column
  c3 : Column
  deriving DecidableEq, Repr

end Sys2Proof
end

