-- ==== Sys2Proof/Syntax.lean ====
section
/-! DEFINITION. The 19 commands of the opcode map (30_encoding.md R57), one constructor each.

A command is what R21 calls the spec's analogue of an instruction. Its explicit operands are IDX
(an unsigned number, R56) and F (R101); every other operand is implicit. IDX is a `Nat` here and
WellFormed.lean says which values the 4-bit field can hold (log 19). -/

namespace Sys2Proof

/-- R57: one constructor per row of spec/opcode_table.json. -/
inductive Instr where
  | nop
  | loadkey
  | clearkey
  | subbytes
  | invsubbytes
  | shiftrows
  | invshiftrows
  | mixcolumns
  | invmixcolumns
  | addrk (r : Nat)
  | addirk (r : Nat)
  | round (r : Nat) (f : Bool)
  | finalround (r : Nat)
  | invround (r : Nat)
  | invfinalround (r : Nat)
  | encrypt (f : Bool)
  | decrypt
  | encryptn (n : Nat) (f : Bool)
  | prevrk (i : Nat)
  deriving DecidableEq, Repr

/-- R55: which of IDX and F a command takes. -/
inductive Format where
  | n
  | i
  | f
  | idxFast
  deriving DecidableEq, Repr

end Sys2Proof
end

