-- ==== Sys2Proof/WellFormed.lean ====
section
/-! DEFINITION. Which commands a command word can hold: IDX is a 4-bit field (30_encoding.md R54, R56, R60). -/

namespace Sys2Proof

/-- R54, R60: an IDX operand fits in bits 11:8; the assembler refuses one above 15. -/
def idxFits (idx : Nat) : Bool := decide (idx ≤ 15)

/-- A command that has an encoding: every index operand it takes fits its field. -/
def Instr.wellFormed : Instr → Bool
  | .nop => true
  | .loadkey => true
  | .clearkey => true
  | .subbytes => true
  | .invsubbytes => true
  | .shiftrows => true
  | .invshiftrows => true
  | .mixcolumns => true
  | .invmixcolumns => true
  | .addrk r => idxFits r
  | .addirk r => idxFits r
  | .round r _ => idxFits r
  | .finalround r => idxFits r
  | .invround r => idxFits r
  | .invfinalround r => idxFits r
  | .encrypt _ => true
  | .decrypt => true
  | .encryptn n _ => idxFits n
  | .prevrk i => idxFits i

end Sys2Proof
end

