-- ==== Sys2Proof/Decode.lean ====
section
/-! DEFINITION. Reading a command word (30_encoding.md R54 to R59) and writing one (R60).

`decode` reads the fields R54 gives, once, and rejects a word by the name of what R58 lists. The
opcode map's `match` and `mask` columns (R57) are kept beside it as `OpcodeRow`s, which the
statements compare the decoder with. -/

namespace Sys2Proof

/-- R58: why a word encodes no command. All four report ILLEGAL_COMMAND (log 18). -/
inductive IllegalWord where
  /-- An OP value not in the table. -/
  | unassignedOpcode
  /-- A nonzero RSV1 or RSV2. -/
  | reservedNonzero
  /-- A nonzero IDX in a format N or F command. -/
  | idxNotTaken
  /-- F = 1 in a format N or I command. -/
  | fastNotTaken
  deriving DecidableEq, Repr

/-- R54: OP, bits 7:0. -/
def opField (w : Word) : Byte := w.extractLsb' 0 8

/-- R54, R56: IDX, bits 11:8, read as an unsigned value, never sign-extended, scaled or shifted. -/
def idxField (w : Word) : Nat := (w.extractLsb' 8 4).toNat

/-- R54: RSV1, bits 15:12. -/
def rsv1Field (w : Word) : BitVec 4 := w.extractLsb' 12 4

/-- R54, R56: F, bit 16. -/
def fastField (w : Word) : Bool := w.getLsbD 16

/-- R54: RSV2, bits 31:17. -/
def rsv2Field (w : Word) : BitVec 15 := w.extractLsb' 17 15

/-- R55: the format takes IDX as an operand. -/
def Format.takesIdx : Format → Bool
  | .n => false
  | .i => true
  | .f => false
  | .idxFast => true

/-- R55: the format takes F as an operand. -/
def Format.takesFast : Format → Bool
  | .n => false
  | .i => false
  | .f => true
  | .idxFast => true

/-- R57: the format of an opcode and the command it makes of the operands, none for an opcode the
table does not assign. -/
def opcode (op : Byte) (idx : Nat) (f : Bool) : Option (Format × Instr) :=
  match op.toNat with
  | 0x00 => some (.n, .nop)
  | 0x01 => some (.n, .loadkey)
  | 0x02 => some (.n, .clearkey)
  | 0x10 => some (.n, .subbytes)
  | 0x11 => some (.n, .invsubbytes)
  | 0x12 => some (.n, .shiftrows)
  | 0x13 => some (.n, .invshiftrows)
  | 0x14 => some (.n, .mixcolumns)
  | 0x15 => some (.n, .invmixcolumns)
  | 0x16 => some (.i, .addrk idx)
  | 0x17 => some (.i, .addirk idx)
  | 0x20 => some (.idxFast, .round idx f)
  | 0x21 => some (.i, .finalround idx)
  | 0x22 => some (.i, .invround idx)
  | 0x23 => some (.i, .invfinalround idx)
  | 0x30 => some (.f, .encrypt f)
  | 0x31 => some (.n, .decrypt)
  | 0x32 => some (.idxFast, .encryptn idx f)
  | 0x40 => some (.i, .prevrk idx)
  | _ => none

/-- R54 to R58: the command a word encodes, or the name of what makes it illegal. -/
def decode (w : Word) : Except IllegalWord Instr :=
  match opcode (opField w) (idxField w) (fastField w) with
  | none => .error .unassignedOpcode
  | some (fmt, i) =>
    if rsv1Field w ≠ 0 ∨ rsv2Field w ≠ 0 then .error .reservedNonzero
    else if fmt.takesIdx = false ∧ idxField w ≠ 0 then .error .idxNotTaken
    else if fmt.takesFast = false ∧ fastField w = true then .error .fastNotTaken
    else .ok i

/-- R60: `OP | idx<<8 | f<<16`. -/
def commandWord (op : Byte) (idx : Nat) (f : Bool) : Word :=
  op.setWidth 32 ||| (BitVec.ofNat 32 idx <<< 8) ||| (BitVec.ofNat 32 f.toNat <<< 16)

/-- R57, R60: the word of a well-formed command. -/
def encode : Instr → Word
  | .nop => commandWord 0x00 0 false
  | .loadkey => commandWord 0x01 0 false
  | .clearkey => commandWord 0x02 0 false
  | .subbytes => commandWord 0x10 0 false
  | .invsubbytes => commandWord 0x11 0 false
  | .shiftrows => commandWord 0x12 0 false
  | .invshiftrows => commandWord 0x13 0 false
  | .mixcolumns => commandWord 0x14 0 false
  | .invmixcolumns => commandWord 0x15 0 false
  | .addrk r => commandWord 0x16 r false
  | .addirk r => commandWord 0x17 r false
  | .round r f => commandWord 0x20 r f
  | .finalround r => commandWord 0x21 r false
  | .invround r => commandWord 0x22 r false
  | .invfinalround r => commandWord 0x23 r false
  | .encrypt f => commandWord 0x30 0 f
  | .decrypt => commandWord 0x31 0 false
  | .encryptn n f => commandWord 0x32 n f
  | .prevrk i => commandWord 0x40 i false

/-- R57: one row of the opcode map as the table writes it. -/
structure OpcodeRow where
  mnemonic : String
  format : Format
  pattern : Word
  mask : Word
  deriving DecidableEq, Repr

/-- R57: a word encodes the row's command when `w & mask = match`. -/
def OpcodeRow.hits (row : OpcodeRow) (w : Word) : Bool := w &&& row.mask == row.pattern

/-- R57, rows 0x00 to 0x15. -/
def opcodeRowsNoOperand : List OpcodeRow :=
  [ ⟨"NOP", .n, 0x00000000, 0xFFFFFFFF⟩,
    ⟨"LOADKEY", .n, 0x00000001, 0xFFFFFFFF⟩,
    ⟨"CLEARKEY", .n, 0x00000002, 0xFFFFFFFF⟩,
    ⟨"SUBBYTES", .n, 0x00000010, 0xFFFFFFFF⟩,
    ⟨"INVSUBBYTES", .n, 0x00000011, 0xFFFFFFFF⟩,
    ⟨"SHIFTROWS", .n, 0x00000012, 0xFFFFFFFF⟩,
    ⟨"INVSHIFTROWS", .n, 0x00000013, 0xFFFFFFFF⟩,
    ⟨"MIXCOLUMNS", .n, 0x00000014, 0xFFFFFFFF⟩,
    ⟨"INVMIXCOLUMNS", .n, 0x00000015, 0xFFFFFFFF⟩ ]

/-- R57, rows 0x16 to 0x40. -/
def opcodeRowsKeyed : List OpcodeRow :=
  [ ⟨"ADDRK", .i, 0x00000016, 0xFFFFF0FF⟩,
    ⟨"ADDIRK", .i, 0x00000017, 0xFFFFF0FF⟩,
    ⟨"ROUND", .idxFast, 0x00000020, 0xFFFEF0FF⟩,
    ⟨"FINALROUND", .i, 0x00000021, 0xFFFFF0FF⟩,
    ⟨"INVROUND", .i, 0x00000022, 0xFFFFF0FF⟩,
    ⟨"INVFINALROUND", .i, 0x00000023, 0xFFFFF0FF⟩,
    ⟨"ENCRYPT", .f, 0x00000030, 0xFFFEFFFF⟩,
    ⟨"DECRYPT", .n, 0x00000031, 0xFFFFFFFF⟩,
    ⟨"ENCRYPTN", .idxFast, 0x00000032, 0xFFFEF0FF⟩,
    ⟨"PREVRK", .i, 0x00000040, 0xFFFFF0FF⟩ ]

/-- R57: the complete opcode map, in the table's order. -/
def opcodeRows : List OpcodeRow := opcodeRowsNoOperand ++ opcodeRowsKeyed

/-- R57: a command's mnemonic, as the opcode map spells it. -/
def Instr.mnemonic : Instr → String
  | .nop => "NOP"
  | .loadkey => "LOADKEY"
  | .clearkey => "CLEARKEY"
  | .subbytes => "SUBBYTES"
  | .invsubbytes => "INVSUBBYTES"
  | .shiftrows => "SHIFTROWS"
  | .invshiftrows => "INVSHIFTROWS"
  | .mixcolumns => "MIXCOLUMNS"
  | .invmixcolumns => "INVMIXCOLUMNS"
  | .addrk _ => "ADDRK"
  | .addirk _ => "ADDIRK"
  | .round _ _ => "ROUND"
  | .finalround _ => "FINALROUND"
  | .invround _ => "INVROUND"
  | .invfinalround _ => "INVFINALROUND"
  | .encrypt _ => "ENCRYPT"
  | .decrypt => "DECRYPT"
  | .encryptn _ _ => "ENCRYPTN"
  | .prevrk _ => "PREVRK"

/-- The 32-bit word whose low `nbits` bits are those of `w`; the bits above are 0. -/
def tableWord (nbits w : Nat) : Word := BitVec.ofNat 32 (w % 2 ^ nbits)

/-- The command the decoder reads from the word `w` of an opcode-table row of `nbits` bits. A
command is one 32-bit word (R54), so bit 0 of the table is bit 0 of the word written to CMD. -/
def decodeTableWord (nbits w : Nat) : Option Instr :=
  match decode (tableWord nbits w) with
  | .ok i => some i
  | .error _ => none

end Sys2Proof
end

