-- ==== Sys2Proof/Machine/State.lean ====
section
/-! DEFINITION. The state of AES-CORE (10_state.md), the reasons a step can stop, and the state after reset.

`State` holds the architectural state of R23 to R28 and the two ends of the host interface: the
accesses the host has still to make and the words its reads have returned (70_reset_and_hazards.md
R135; logs 1 and 2). STATUS and CMD hold nothing of their own (R29, R30). The core has no memory
(20_memory.md R38, log 17). -/

namespace Sys2Proof.Machine

/-- The block with every byte 0x00. -/
def zeroBlock : Block := ⟨⟨0, 0, 0, 0⟩, ⟨0, 0, 0, 0⟩, ⟨0, 0, 0, 0⟩, ⟨0, 0, 0, 0⟩⟩

/-- R28, R110: what ERR can hold. The reserved codes 6..15 are never written, so no value of this
type stands for one (log 16). The 4-bit codes are `ErrCode.code` in Flags.lean. -/
inductive ErrCode where
  | ok
  | illegalCommand
  | invalidKeySize
  | noKey
  | badIndex
  | keySizeMismatch
  deriving DecidableEq, Repr

/-- R26: KEYSTATE, the cipher-instance descriptor. -/
structure KeyState where
  /-- KV, 1 bit: an instance is constructed. -/
  kv : Bool
  /-- NK, 4 bits: the number of key words. -/
  nk : BitVec 4
  /-- NR, 4 bits: the round count. -/
  nr : BitVec 4
  deriving DecidableEq, Repr

/-- R26: no instance, `(KV, NK, NR) = (0, 0, 0)`. -/
def KeyState.empty : KeyState := ⟨false, 0, 0⟩

/-- R18, R42, R43, R126: what the outside world can do to the core. `n` is the access width in
bytes; every width but 4 is a bus error, a burst among them (R40, log 6). -/
inductive HostEvent where
  /-- `MemRead(off, n)`. -/
  | read (n off : Nat)
  /-- `MemWrite(off, n, v)`. -/
  | write (n off : Nat) (v : Word)
  /-- Reset asserted between two accesses (log 10). -/
  | reset
  deriving DecidableEq, Repr

/-- The state of the core and of its host interface. -/
structure State where
  /-- DATA0..DATA3, the 16-byte state S (R23): column `j` is DATAj. -/
  data : Block
  /-- KEY0..KEY7 (R24). -/
  key : Vector Word 8
  /-- KEYLEN (R25). -/
  keylen : Word
  /-- KEYSTATE (R26). -/
  keystate : KeyState
  /-- RK[0..14] (R27). -/
  rk : Vector Block 15
  /-- IRK[0..14] (R27). -/
  irk : Vector Block 15
  /-- ERR (R28). -/
  err : ErrCode
  /-- The model's own field: the host accesses still to be performed, oldest first (log 1). -/
  pending : List HostEvent
  /-- The model's own field: the words the reads so far returned, oldest first (log 2). -/
  reads : List Word
  deriving DecidableEq, Repr

/-- Why the machine stops with a fault. -/
inductive Fault where
  /-- R115: raised by a host access of the wrong width, misaligned, or to an unmapped offset; its
  value is the offset (R116). The spec itself makes it a fault. Safe: the run stops, and the core's
  state is the one before the access. -/
  | busError (off : Nat)
  deriving DecidableEq, Repr

/-- Why the machine refuses to give a meaning. -/
inductive Refusal where
  /-- Raised by an arm of `exec` whose command has no meaning yet; no arm does so now. Safe. -/
  | notModelled (mnemonic : String)
  deriving DecidableEq, Repr

/-- What every command and access answers. -/
abbrev Result := Host.Outcome State Fault Refusal

/-- R36, R126: every register zero, no instance, ERR = OK. The host has nothing pending and has read
nothing (logs 1 and 2, DESIGN CHOICE). -/
def State.reset : State where
  data := zeroBlock
  key := Vector.replicate 8 0
  keylen := 0
  keystate := KeyState.empty
  rk := Vector.replicate 15 zeroBlock
  irk := Vector.replicate 15 zeroBlock
  err := .ok
  pending := []
  reads := []

end Sys2Proof.Machine
end

