-- ==== Sys2Proof/Machine/Block.lean ====
section
/-! DEFINITION. The views of a block: bytes, rows and columns, words (00_scope.md R13 to R16; 20_memory.md R45). -/

namespace Sys2Proof

/-- The byte of a column in row `r`. -/
def Column.get (c : Column) (r : Fin 4) : Byte :=
  match r with
  | 0 => c.r0
  | 1 => c.r1
  | 2 => c.r2
  | 3 => c.r3

/-- R14: column `c` of a block, the bytes `s[4c]..s[4c+3]`. -/
def Block.col (s : Block) (c : Fin 4) : Column :=
  match c with
  | 0 => s.c0
  | 1 => s.c1
  | 2 => s.c2
  | 3 => s.c3

/-- R14: `s[r, c]`. -/
def Block.at (s : Block) (r c : Fin 4) : Byte := (s.col c).get r

/-- R14: `s[i]`, in row `i mod 4` and column `i div 4`. -/
def Block.byte (s : Block) (i : Fin 16) : Byte := s.at (Fin.ofNat 4 (i.val % 4)) (Fin.ofNat 4 (i.val / 4))

/-- The block whose columns are given. -/
def Block.ofColumns (f : Fin 4 → Column) : Block := ⟨f 0, f 1, f 2, f 3⟩

/-- The block whose byte in row `r` and column `c` is `f r c`. -/
def Block.ofRows (f : Fin 4 → Fin 4 → Byte) : Block :=
  Block.ofColumns fun c => ⟨f 0 c, f 1 c, f 2 c, f 3 c⟩

/-- The block with `f` applied to every byte. -/
def Block.map (f : Byte → Byte) (s : Block) : Block := Block.ofRows fun r c => f (s.at r c)

/-- The block with `f` applied to every column. -/
def Block.mapColumns (f : Column → Column) (s : Block) : Block := Block.ofColumns fun c => f (s.col c)

/-- R15, R45: a column as a big-endian word, row 0 in bits 31:24. -/
def Column.toWord (c : Column) : Word :=
  (c.r0.setWidth 32 <<< 24) ||| (c.r1.setWidth 32 <<< 16) ||| (c.r2.setWidth 32 <<< 8) ||| c.r3.setWidth 32

/-- R15: `B(w)`, the four bytes of a word, bits 31:24 first. -/
def Column.ofWord (w : Word) : Column :=
  ⟨w.extractLsb' 24 8, w.extractLsb' 16 8, w.extractLsb' 8 8, w.extractLsb' 0 8⟩

/-- R15: `W(s, j)`. -/
def Block.word (s : Block) (j : Fin 4) : Word := (s.col j).toWord

/-- The block whose word `j` is `f j`. -/
def Block.ofWords (f : Fin 4 → Word) : Block := Block.ofColumns fun j => Column.ofWord (f j)

/-- R43: the block with the four bytes of word `j` replaced. -/
def Block.setCol (s : Block) (j : Fin 4) (c : Column) : Block :=
  match j with
  | 0 => { s with c0 := c }
  | 1 => { s with c1 := c }
  | 2 => { s with c2 := c }
  | 3 => { s with c3 := c }

/-- R13: the block a 32-digit hex string writes, byte 0 first: byte 0 is the number's top byte. -/
def Block.ofHex (h : BitVec 128) : Block :=
  Block.ofRows fun r c => h.extractLsb' (8 * (15 - (4 * c.val + r.val))) 8

/-- R16: rotate a word left by 8 bits. -/
def rotl8 (w : Word) : Word := w.rotateLeft 8

/-- R16: rotate a word right by 8 bits. -/
def rotr8 (w : Word) : Word := w.rotateRight 8

end Sys2Proof
end

