-- ==== Sys2Proof/Machine/Flags.lean ====
section
/-! DEFINITION. The status fields: ERR's codes and the STATUS word (10_state.md R28, R29, R33; 60_exceptions.md R110).

The core has no arithmetic flags. KV and ERR are its only status bits (R33). -/

namespace Sys2Proof.Machine

/-- R110: the 4-bit code of an ERR value. -/
def ErrCode.code : ErrCode → BitVec 4
  | .ok => 0
  | .illegalCommand => 1
  | .invalidKeySize => 2
  | .noKey => 3
  | .badIndex => 4
  | .keySizeMismatch => 5

/-- R26: KV as a bit. -/
def KeyState.kvBit (k : KeyState) : BitVec 1 := BitVec.ofBool k.kv

/-- R29: `zext_32(ERR<<12 | NR<<8 | NK<<4 | KV)`. -/
def statusWord (s : State) : Word :=
  (s.err.code.setWidth 32 <<< 12) ||| (s.keystate.nr.setWidth 32 <<< 8) ||| (s.keystate.nk.setWidth 32 <<< 4) |||
    s.keystate.kvBit.setWidth 32

end Sys2Proof.Machine
end

