-- ==== Sys2Proof/Machine/Rounds.lean ====
section
/-! DEFINITION. The cipher core's transforms, the round functions and the ciphers as functions of a block
(41_cipher_core.md section 1; 43_cipher_driver.md sections 1 and 2). -/

namespace Sys2Proof

/-- R71: every byte through the substitution table. -/
def subBytes (s : Block) : Block := s.map sbox

/-- R71: every byte through the inverse table. -/
def invSubBytes (s : Block) : Block := s.map invSbox

/-- R72: row `r` rotated left by `r`; the sum of column numbers is mod 4. -/
def shiftRows (s : Block) : Block := Block.ofRows fun r c => s.at r (c + r)

/-- R72: row `r` rotated right by `r`; the difference of column numbers is mod 4. -/
def invShiftRows (s : Block) : Block := Block.ofRows fun r c => s.at r (c - r)

/-- R73: one column by the circulant matrix with first row (02, 03, 01, 01). -/
def mixColumn (a : Column) : Column where
  r0 := mulTable 0x02 a.r0 ^^^ mulTable 0x03 a.r1 ^^^ a.r2 ^^^ a.r3
  r1 := a.r0 ^^^ mulTable 0x02 a.r1 ^^^ mulTable 0x03 a.r2 ^^^ a.r3
  r2 := a.r0 ^^^ a.r1 ^^^ mulTable 0x02 a.r2 ^^^ mulTable 0x03 a.r3
  r3 := mulTable 0x03 a.r0 ^^^ a.r1 ^^^ a.r2 ^^^ mulTable 0x02 a.r3

/-- R73. -/
def mixColumns (s : Block) : Block := s.mapColumns mixColumn

/-- R74: one column by the circulant matrix with first row (0E, 0B, 0D, 09). -/
def invMixColumn (a : Column) : Column where
  r0 := mulTable 0x0E a.r0 ^^^ mulTable 0x0B a.r1 ^^^ mulTable 0x0D a.r2 ^^^ mulTable 0x09 a.r3
  r1 := mulTable 0x09 a.r0 ^^^ mulTable 0x0E a.r1 ^^^ mulTable 0x0B a.r2 ^^^ mulTable 0x0D a.r3
  r2 := mulTable 0x0D a.r0 ^^^ mulTable 0x09 a.r1 ^^^ mulTable 0x0E a.r2 ^^^ mulTable 0x0B a.r3
  r3 := mulTable 0x0B a.r0 ^^^ mulTable 0x0D a.r1 ^^^ mulTable 0x09 a.r2 ^^^ mulTable 0x0E a.r3

/-- R74. -/
def invMixColumns (s : Block) : Block := s.mapColumns invMixColumn

/-- R75: byte-for-byte XOR with a round key. -/
def addRoundKey (s k : Block) : Block := Block.ofRows fun r c => s.at r c ^^^ k.at r c

/-- R95. -/
def fullRound (s k : Block) : Block := addRoundKey (mixColumns (shiftRows (subBytes s))) k

/-- R95: the final round omits MixColumns. -/
def finalRound (s k : Block) : Block := addRoundKey (shiftRows (subBytes s)) k

/-- R96. -/
def invRound (s k : Block) : Block := addRoundKey (invMixColumns (invShiftRows (invSubBytes s))) k

/-- R96. -/
def invFinalRound (s k : Block) : Block := addRoundKey (invShiftRows (invSubBytes s)) k

/-- R100: the full round by table lookup, one output word per column. -/
def fullRoundT (s k : Block) : Block :=
  Block.ofWords fun c =>
    tTable0 (s.at 0 c) ^^^ tTable1 (s.at 1 (c + 1)) ^^^ tTable2 (s.at 2 (c + 2)) ^^^ tTable3 (s.at 3 (c + 3)) ^^^
      k.word c

/-- R101: the full round of the datapath that F selects (log 11). -/
def fullRoundBy (f : Bool) (s k : Block) : Block :=
  match f with
  | false => fullRound s k
  | true => fullRoundT s k

/-- R97, R98: the state after rounds 1..k of a cipher over the round keys `keys`. -/
def roundsFrom (round : Block → Block → Block) (keys : Nat → Block) (s : Block) : Nat → Block
  | 0 => s
  | k + 1 => round (roundsFrom round keys s k) (keys (k + 1))

/-- R97, R100: `Cipher(s, keys, n)` over the datapath that F selects, for `n ≥ 1` (log 20). -/
def cipherBy (f : Bool) (s : Block) (keys : Nat → Block) (n : Nat) : Block :=
  finalRound (roundsFrom (fullRoundBy f) keys (addRoundKey s (keys 0)) (n - 1)) (keys n)

/-- R98: the equivalent inverse cipher, for `n ≥ 1` (log 20). -/
def eqInvCipher (s : Block) (keys : Nat → Block) (n : Nat) : Block :=
  invFinalRound (roundsFrom invRound keys (addRoundKey s (keys 0)) (n - 1)) (keys n)

end Sys2Proof
end

