-- ==== Sys2Proof/Machine/Schedule.lean ====
section
/-! DEFINITION. The key schedule as functions: expansion, inverse schedule, previous round key (42_key_schedule.md R85 to R88, R93). -/

namespace Sys2Proof

/-- R2, R8: the three key sizes. -/
inductive KeySize where
  | aes128
  | aes192
  | aes256
  deriving DecidableEq, Repr

/-- R8: N, the number of 4-byte key words. -/
def KeySize.words : KeySize → Nat
  | .aes128 => 4
  | .aes192 => 6
  | .aes256 => 8

/-- R8: Nr, the number of rounds. -/
def KeySize.rounds : KeySize → Nat
  | .aes128 => 10
  | .aes192 => 12
  | .aes256 => 14

/-- R25, R89: the key size a KEYLEN of 16, 24 or 32 bytes stands for; all 32 bits are compared. -/
def keySizeOf (keylen : Word) : Option KeySize :=
  if keylen = 16 then some .aes128
  else if keylen = 24 then some .aes192
  else if keylen = 32 then some .aes256
  else none

/-- R85: rotate a word one byte toward its most significant end. -/
def rotWord (w : Word) : Word := rotl8 w

/-- R85: every byte of a word through the S-box. -/
def subWord (w : Word) : Word :=
  let b := Column.ofWord w
  Column.toWord ⟨sbox b.r0, sbox b.r1, sbox b.r2, sbox b.r3⟩

/-- R86: what the word one position earlier contributes to word `i`. -/
def scheduleTemp (n i : Nat) (t : Word) : Word :=
  if i % n = 0 then subWord (rotWord t) ^^^ rconWord (i / n)
  else if n = 8 ∧ i % n = 4 then subWord t
  else t

/-- R86: word `i` from the words before it, which are listed newest first. -/
def nextWord (n i : Nat) (earlier : List Word) : Word :=
  earlier.getD (n - 1) 0 ^^^ scheduleTemp n i (earlier.getD 0 0)

/-- R86: the first `n` words with `k` more, newest first. -/
def expandNewestFirst (n : Nat) (keyWords : List Word) : Nat → List Word
  | 0 => keyWords.reverse
  | k + 1 => nextWord n (n + k) (expandNewestFirst n keyWords k) :: expandNewestFirst n keyWords k

/-- R86: the key words, each four key bytes big-endian. -/
def keyWordsOf : List Byte → List Word
  | a :: b :: c :: d :: rest => Column.toWord ⟨a, b, c, d⟩ :: keyWordsOf rest
  | _ => []

/-- R86: the words `w[0], w[1], ..., w[4·Nr+3]` of the expansion. -/
def expandedWords (ks : KeySize) (key : List Byte) : List Word :=
  (expandNewestFirst ks.words (keyWordsOf key) (4 * (ks.rounds + 1) - ks.words)).reverse

/-- R86: round key `r` holds the words `w[4r], w[4r+1], w[4r+2], w[4r+3]`. -/
def roundKeyOf (ws : List Word) (r : Nat) : Block := Block.ofWords fun j => ws.getD (4 * r + j.val) 0

/-- R86: `KeyExpansion(key, N)`, the round keys 0..Nr. -/
def keyExpansion (ks : KeySize) (key : List Byte) : List Block :=
  (List.range (ks.rounds + 1)).map (roundKeyOf (expandedWords ks key))

/-- R87: entry `j` of the inverse schedule of round keys `0..nr`. -/
def inverseKeyOf (rks : List Block) (nr j : Nat) : Block :=
  if j = 0 ∨ j = nr then rks.getD (nr - j) Machine.zeroBlock
  else invMixColumns (rks.getD (nr - j) Machine.zeroBlock)

/-- R87: `InverseSchedule(RKx, Nr)`. -/
def inverseSchedule (rks : List Block) (nr : Nat) : List Block :=
  (List.range (nr + 1)).map (inverseKeyOf rks nr)

/-- R89: the fifteen blocks of a round-key file that holds a schedule: zero above its end. -/
def roundKeyFile (schedule : List Block) : Vector Block 15 :=
  Vector.ofFn fun r => schedule.getD r.val Machine.zeroBlock

/-- R93: AES-128 round key `i` from round key `i+1`, for `i` in 0..9. -/
def prevRoundKey (k : Block) (i : Nat) : Block :=
  let u3 := k.word 3 ^^^ k.word 2
  let u2 := k.word 2 ^^^ k.word 1
  let u1 := k.word 1 ^^^ k.word 0
  let u0 := k.word 0 ^^^ subWord (rotWord u3) ^^^ rconWord (i + 1)
  ⟨Column.ofWord u0, Column.ofWord u1, Column.ofWord u2, Column.ofWord u3⟩

end Sys2Proof
end

