-- ==== Sys2Proof/Machine/Ops.lean ====
section
/-! DEFINITION. The named operations over the registers: ending a command, raising a command error, constructing and
destroying the cipher instance, the register map and its reads and writes, and reset. -/

namespace Sys2Proof.Machine

/-! ### Ending a command -/

/-- R19, R112: `raise CmdError(code)`: ERR takes the code and nothing else changes. There is no
handler, no saved register and no change of mode, and no return from an error (R113). -/
def raiseCmdError (code : ErrCode) (s : State) : Result := .next { s with err := code }

/-- R59: a command that completes ends with `x[ERR] <- OK`. -/
def complete (s : State) : Result := .next { s with err := .ok }

/-- A command that transforms the state: S takes the block and ERR becomes OK. -/
def commitData (b : Block) (s : State) : Result := complete { s with data := b }

/-! ### The cipher instance -/

/-- R91, R92: no instance: KEYSTATE (0, 0, 0), every byte of RK and IRK zero. -/
def destroyInstance (s : State) : State :=
  { s with keystate := KeyState.empty, rk := Vector.replicate 15 zeroBlock, irk := Vector.replicate 15 zeroBlock }

/-- R24: the four key bytes of a KEY register, bits 31:24 first. -/
def bytesOfWord (w : Word) : List Byte :=
  let c := Column.ofWord w
  [c.r0, c.r1, c.r2, c.r3]

/-- R24, R89: the key bytes staged in KEY0..KEY(n-1). -/
def stagedKey (n : Nat) (s : State) : List Byte := (s.key.toList.take n).flatMap bytesOfWord

/-- R90: KEYSTATE of a loaded key. -/
def KeyState.loaded (ks : KeySize) : KeyState := ⟨true, BitVec.ofNat 4 ks.words, BitVec.ofNat 4 ks.rounds⟩

/-- R89, R90: the instance of the given key: KEYSTATE, and RK and IRK with zero above NR. -/
def constructInstance (ks : KeySize) (key : List Byte) (s : State) : State :=
  { s with
    keystate := KeyState.loaded ks
    rk := roundKeyFile (keyExpansion ks key)
    irk := roundKeyFile (inverseSchedule (keyExpansion ks key) ks.rounds) }

/-! ### The register map -/

/-- R39: the registers of the aperture. -/
inductive RegAddr where
  | cmd
  | status
  | keylen
  | data (j : Fin 4)
  | key (j : Fin 8)
  | rk (r : Fin 15) (j : Fin 4)
  | irk (r : Fin 15) (j : Fin 4)
  deriving DecidableEq, Repr

/-- R39: the offset of a register. -/
def RegAddr.offset : RegAddr → Nat
  | .cmd => 0x000
  | .status => 0x004
  | .keylen => 0x008
  | .data j => 0x010 + 4 * j.val
  | .key j => 0x020 + 4 * j.val
  | .rk r j => 0x100 + 16 * r.val + 4 * j.val
  | .irk r j => 0x200 + 16 * r.val + 4 * j.val

/-- R39: the register at an aligned offset, none where the offset is unmapped. -/
def regAt (off : Nat) : Option RegAddr :=
  if off = 0x000 then some .cmd
  else if off = 0x004 then some .status
  else if off = 0x008 then some .keylen
  else if 0x010 ≤ off ∧ off < 0x020 then some (.data (Fin.ofNat 4 ((off - 0x010) / 4)))
  else if 0x020 ≤ off ∧ off < 0x040 then some (.key (Fin.ofNat 8 ((off - 0x020) / 4)))
  else if 0x100 ≤ off ∧ off < 0x1F0 then
    some (.rk (Fin.ofNat 15 ((off - 0x100) / 16)) (Fin.ofNat 4 ((off - 0x100) % 16 / 4)))
  else if 0x200 ≤ off ∧ off < 0x2F0 then
    some (.irk (Fin.ofNat 15 ((off - 0x200) / 16)) (Fin.ofNat 4 ((off - 0x200) % 16 / 4)))
  else none

/-- R40, R41, R44, R115: the register an access reaches, none where it is a bus error: the wrong
width, misaligned, past the aperture, or unmapped. -/
def selectReg (n off : Nat) : Option RegAddr :=
  if n ≠ 4 ∨ off % 4 ≠ 0 ∨ off > 0xFFF then none else regAt off

/-- R42: the word a register reads as. CMD reads 0 (R30). -/
def readReg (a : RegAddr) (s : State) : Word :=
  match a with
  | .cmd => 0
  | .status => statusWord s
  | .keylen => s.keylen
  | .data j => s.data.word j
  | .key j => s.key[j]
  | .rk r j => s.rk[r].word j
  | .irk r j => s.irk[r].word j

/-- R43: what writing a word to a register stores. A write to CMD stores nothing: it launches a
command (Access.lean). STATUS and the RK and IRK windows are read-only and the write is ignored. -/
def writeReg (a : RegAddr) (v : Word) (s : State) : State :=
  match a with
  | .cmd => s
  | .status => s
  | .keylen => { s with keylen := v }
  | .data j => { s with data := s.data.setCol j (Column.ofWord v) }
  | .key j => { s with key := s.key.set j.val v j.isLt }
  | .rk _ _ => s
  | .irk _ _ => s

/-- R42: `MemRead(off, n)`, with no side effect. -/
def memRead (n off : Nat) (s : State) : Except Fault Word :=
  match selectReg n off with
  | some a => .ok (readReg a s)
  | none => .error (.busError off)

/-! ### Reset -/

/-- R126: every piece of the core's state takes its reset value. What the host has still to do and
what it has read are not the core's (log 10). -/
def resetCore (s : State) : State := { State.reset with pending := s.pending, reads := s.reads }

end Sys2Proof.Machine
end

