-- ==== Sys2Proof/Machine/Operands.lean ====
section
/-! DEFINITION. The operands of the commands and the checks on them: the instance a key-consuming command needs, its
index operand, and the round-key blocks (30_encoding.md R56; 60_exceptions.md R110, R111). -/

namespace Sys2Proof.Machine

/-- R27: `RK[r]`. No run reaches an `r` above 14 here, where the file ends (log 7). -/
def roundKey (s : State) (r : Nat) : Block := s.rk.toList.getD r zeroBlock

/-- R27: `IRK[r]`. No run reaches an `r` above 14 here, where the file ends (log 7). -/
def invRoundKey (s : State) (r : Nat) : Block := s.irk.toList.getD r zeroBlock

/-- R26: NR as a number of rounds. -/
def roundCount (s : State) : Nat := s.keystate.nr.toNat

/-- R110, R111: NO_KEY where the command needs an instance and KV = 0. -/
def requireKey (s : State) (go : Result) : Result := if s.keystate.kv then go else raiseCmdError .noKey s

/-- R110: BAD_INDEX where a round-key index is above NR. -/
def requireIndex (r : Nat) (s : State) (go : Result) : Result :=
  if r > roundCount s then raiseCmdError .badIndex s else go

/-- R108, R110: KEY_SIZE_MISMATCH where the loaded key is not 16 bytes. -/
def requireKey128 (s : State) (go : Result) : Result :=
  if s.keystate.nk ≠ 4 then raiseCmdError .keySizeMismatch s else go

/-- R108, R110: BAD_INDEX where a round count is 0 or above NR. -/
def requireRoundCount (n : Nat) (s : State) (go : Result) : Result :=
  if n = 0 ∨ n > roundCount s then raiseCmdError .badIndex s else go

/-- The commands that apply a function of one forward round key to the state: NO_KEY, then
BAD_INDEX, then the effect. -/
def withRoundKey (f : Block → Block → Block) (r : Nat) (s : State) : Result :=
  requireKey s (requireIndex r s (commitData (f s.data (roundKey s r)) s))

/-- The commands that apply a function of one inverse-schedule round key to the state: NO_KEY, then
BAD_INDEX, then the effect. -/
def withInvRoundKey (f : Block → Block → Block) (r : Nat) (s : State) : Result :=
  requireKey s (requireIndex r s (commitData (f s.data (invRoundKey s r)) s))

end Sys2Proof.Machine
end

