-- ==== Sys2Proof/Machine/Control.lean ====
section
/-! DEFINITION. Opcode group 0x0_, instance control: NOP, LOADKEY, CLEARKEY (43_cipher_driver.md R109; 42_key_schedule.md R89 to R92). -/

namespace Sys2Proof.Machine

/-- R109: only ERR is written. -/
def execNop (s : State) : Result := complete s

/-- R89 to R91: construct the instance of the staged key; a KEYLEN that is not 16, 24 or 32 destroys
the instance and reports INVALID_KEY_SIZE. -/
def execLoadkey (s : State) : Result :=
  match keySizeOf s.keylen with
  | none => raiseCmdError .invalidKeySize (destroyInstance s)
  | some ks => complete (constructInstance ks (stagedKey ks.words s) s)

/-- R92: destroy the instance. -/
def execClearkey (s : State) : Result := complete (destroyInstance s)

end Sys2Proof.Machine
end

