-- ==== Sys2Proof/Machine/Driver.lean ====
section
/-! DEFINITION. Opcode group 0x3_, the cipher driver, and 0x4_, key recovery (43_cipher_driver.md R106 to R108; 42_key_schedule.md R94). -/

namespace Sys2Proof.Machine

/-- R106: NR rounds over RK, on the datapath F selects (R101). -/
def execEncrypt (f : Bool) (s : State) : Result :=
  requireKey s (commitData (cipherBy f s.data (roundKey s) (roundCount s)) s)

/-- R107: the equivalent inverse cipher over IRK. -/
def execDecrypt (s : State) : Result :=
  requireKey s (commitData (eqInvCipher s.data (invRoundKey s) (roundCount s)) s)

/-- R108: `n` rounds over RK; NO_KEY, then KEY_SIZE_MISMATCH, then BAD_INDEX. -/
def execEncryptn (n : Nat) (f : Bool) (s : State) : Result :=
  requireKey s (requireKey128 s (requireRoundCount n s (commitData (cipherBy f s.data (roundKey s) n) s)))

/-- R94: needs no instance; BAD_INDEX where `i > 9`. -/
def execPrevrk (i : Nat) (s : State) : Result :=
  if i > 9 then raiseCmdError .badIndex s else commitData (prevRoundKey s.data i) s

end Sys2Proof.Machine
end

