-- ==== Sys2Proof/Machine/Round.lean ====
section
/-! DEFINITION. Opcode group 0x2_, one round of the state in place (43_cipher_driver.md R102 to R105). -/

namespace Sys2Proof.Machine

/-- R102: F selects the datapath (R101). -/
def execRound (r : Nat) (f : Bool) (s : State) : Result := withRoundKey (fullRoundBy f) r s

/-- R103. -/
def execFinalround (r : Nat) (s : State) : Result := withRoundKey finalRound r s

/-- R104. -/
def execInvround (r : Nat) (s : State) : Result := withInvRoundKey invRound r s

/-- R105. -/
def execInvfinalround (r : Nat) (s : State) : Result := withInvRoundKey invFinalRound r s

end Sys2Proof.Machine
end

