-- ==== Sys2Proof/Machine/Transform.lean ====
section
/-! DEFINITION. Opcode group 0x1_, one transform of the state in place (41_cipher_core.md section 2). -/

namespace Sys2Proof.Machine

/-- R77. -/
def execSubbytes (s : State) : Result := commitData (subBytes s.data) s

/-- R78. -/
def execInvsubbytes (s : State) : Result := commitData (invSubBytes s.data) s

/-- R79. -/
def execShiftrows (s : State) : Result := commitData (shiftRows s.data) s

/-- R80. -/
def execInvshiftrows (s : State) : Result := commitData (invShiftRows s.data) s

/-- R81. -/
def execMixcolumns (s : State) : Result := commitData (mixColumns s.data) s

/-- R82. -/
def execInvmixcolumns (s : State) : Result := commitData (invMixColumns s.data) s

/-- R83. -/
def execAddrk (r : Nat) (s : State) : Result := withRoundKey addRoundKey r s

/-- R84. -/
def execAddirk (r : Nat) (s : State) : Result := withInvRoundKey addRoundKey r s

end Sys2Proof.Machine
end

