-- ==== Sys2Proof/Machine/Dispatch.lean ====
section
/-! DEFINITION. Performing a decoded command: one arm per row of the opcode map (30_encoding.md R57, R59). -/

namespace Sys2Proof.Machine

def exec (i : Instr) (s : State) : Host.Outcome State Fault Refusal :=
  match i with
  | .nop => Sys2Proof.Machine.execNop s
  | .loadkey => Sys2Proof.Machine.execLoadkey s
  | .clearkey => Sys2Proof.Machine.execClearkey s
  | .subbytes => Sys2Proof.Machine.execSubbytes s
  | .invsubbytes => Sys2Proof.Machine.execInvsubbytes s
  | .shiftrows => Sys2Proof.Machine.execShiftrows s
  | .invshiftrows => Sys2Proof.Machine.execInvshiftrows s
  | .mixcolumns => Sys2Proof.Machine.execMixcolumns s
  | .invmixcolumns => Sys2Proof.Machine.execInvmixcolumns s
  | .addrk r => Sys2Proof.Machine.execAddrk r s
  | .addirk r => Sys2Proof.Machine.execAddirk r s
  | .round r f => Sys2Proof.Machine.execRound r f s
  | .finalround r => Sys2Proof.Machine.execFinalround r s
  | .invround r => Sys2Proof.Machine.execInvround r s
  | .invfinalround r => Sys2Proof.Machine.execInvfinalround r s
  | .encrypt f => Sys2Proof.Machine.execEncrypt f s
  | .decrypt => Sys2Proof.Machine.execDecrypt s
  | .encryptn n f => Sys2Proof.Machine.execEncryptn n f s
  | .prevrk k => Sys2Proof.Machine.execPrevrk k s

end Sys2Proof.Machine
end

