-- ==== Sys2Proof/Machine/Access.lean ====
section
/-! DEFINITION. One host access, performed whole: a command word's execution (30_encoding.md R59), `MemWrite`
(20_memory.md R43), and what each host event does. -/

namespace Sys2Proof.Machine

/-- R59: `Execute(w)`, one atomic transition (R47). A word that matches no row of the opcode map
raises ILLEGAL_COMMAND before anything else is checked (R58, R111). -/
def execute (w : Word) (s : State) : Result :=
  match decode w with
  | .error _ => raiseCmdError .illegalCommand s
  | .ok i => exec i s

/-- R43: `MemWrite(off, n, v)`. The access checks come before any command error (R116). -/
def memWrite (n off : Nat) (v : Word) (s : State) : Result :=
  match selectReg n off with
  | some .cmd => execute v s
  | some a => .next (writeReg a v s)
  | none => .fault (.busError off)

/-- What one host event does to the core: a read answers a word, which the host keeps (R135). -/
def performEvent (e : HostEvent) (s : State) : Result :=
  match e with
  | .read n off =>
    match memRead n off s with
    | .ok v => .next { s with reads := s.reads ++ [v] }
    | .error r => .fault r
  | .write n off v => memWrite n off v s
  | .reset => .next (resetCore s)

/-- The commands of a list performed in order, as a host writes them one after another (R48). -/
def execAll : List Instr → State → Result
  | [], s => .next s
  | i :: rest, s =>
    match exec i s with
    | .next t => execAll rest t
    | .fault r => .fault r
    | .refused r => .refused r

/-- The host events of a list performed in order, stopping at the first bus error (R48, R135). -/
def performAll : List HostEvent → State → Result
  | [], s => .next s
  | e :: rest, s =>
    match performEvent e s with
    | .next t => performAll rest t
    | .fault r => .fault r
    | .refused r => .refused r

/-- One transition (R48, R125): the oldest access still to be made is taken and performed whole.
With none presented the core is idle and keeps all state (R124, log 3). -/
def performNext (s : State) : Result :=
  match s.pending with
  | [] => .next s
  | e :: rest => performEvent e { s with pending := rest }

/-- The host's write of a command word, put before everything else it has still to do. -/
def presentCommand (w : Word) (s : State) : State := { s with pending := .write 4 0x000 w :: s.pending }

end Sys2Proof.Machine
end

