-- ==== Sys2Proof/Machine/Step.lean ====
section
/-! DEFINITION. One step: one completed host access (70_reset_and_hazards.md R125). It only calls Access.lean. -/

namespace Sys2Proof.Machine

/-- One step of the machine. -/
def step (s : State) : Host.Outcome State Fault Refusal := performNext s

/-- The state in which the next step runs the command word `w` of an opcode-table row: the core
fetches nothing (R32, R51), so the host presents a write of the word to CMD next (log 1). -/
def State.withFetchWord (s : State) (nbits w : Nat) : State := presentCommand (tableWord nbits w) s

end Sys2Proof.Machine
end

