-- ==== Sys2Proof/Machine/HostProgram.lean ====
section
/-! DEFINITION. The spec's assembly syntax and its host programs, expanded to host accesses (30_encoding.md R60, R61). -/

namespace Sys2Proof

/-- R60: one assembled command as written: the mnemonic, the `.F` suffix, the decimal IDX. -/
structure AsmLine where
  mnemonic : String
  fast : Bool
  idx : Option Nat
  deriving DecidableEq, Repr

/-- R60: the text of a line. -/
def AsmLine.text (l : AsmLine) : String :=
  l.mnemonic ++ (if l.fast then ".F" else "") ++
    (match l.idx with
     | none => ""
     | some k => " " ++ toString k)

/-- R60: the line that writes a command. -/
def Instr.asm (i : Instr) : AsmLine :=
  match i with
  | .addrk r => ⟨i.mnemonic, false, some r⟩
  | .addirk r => ⟨i.mnemonic, false, some r⟩
  | .round r f => ⟨i.mnemonic, f, some r⟩
  | .finalround r => ⟨i.mnemonic, false, some r⟩
  | .invround r => ⟨i.mnemonic, false, some r⟩
  | .invfinalround r => ⟨i.mnemonic, false, some r⟩
  | .encrypt f => ⟨i.mnemonic, f, none⟩
  | .encryptn n f => ⟨i.mnemonic, f, some n⟩
  | .prevrk k => ⟨i.mnemonic, false, some k⟩
  | .nop => ⟨i.mnemonic, false, none⟩
  | .loadkey => ⟨i.mnemonic, false, none⟩
  | .clearkey => ⟨i.mnemonic, false, none⟩
  | .subbytes => ⟨i.mnemonic, false, none⟩
  | .invsubbytes => ⟨i.mnemonic, false, none⟩
  | .shiftrows => ⟨i.mnemonic, false, none⟩
  | .invshiftrows => ⟨i.mnemonic, false, none⟩
  | .mixcolumns => ⟨i.mnemonic, false, none⟩
  | .invmixcolumns => ⟨i.mnemonic, false, none⟩
  | .decrypt => ⟨i.mnemonic, false, none⟩

/-- R60: the word a row and a line's operands assemble to, none where the assembler refuses: `.F` on
a mnemonic whose format takes no F, an IDX where none is taken, none where one is, or above 15. -/
def assembleRow (row : OpcodeRow) (l : AsmLine) : Option Word :=
  if l.fast = true ∧ row.format.takesFast = false then none
  else
    match l.idx with
    | none => if row.format.takesIdx then none else some (commandWord (opField row.pattern) 0 l.fast)
    | some k =>
      if row.format.takesIdx = false ∨ k > 15 then none else some (commandWord (opField row.pattern) k l.fast)

/-- R60: the word a line assembles to, none for a mnemonic that is not in the opcode map. -/
def assemble (l : AsmLine) : Option Word :=
  match opcodeRows.find? (fun row => row.mnemonic == l.mnemonic) with
  | some row => assembleRow row l
  | none => none

namespace Machine

/-- R61: a line of a host program. -/
inductive HostLine where
  | wr (off : Nat) (v : Word)
  | rd (off : Nat)
  | command (i : Instr)
  | ldState (h : Block)
  | rdState
  | ldKey (key : List Byte)
  | rdRk (r : Nat)
  | rdIrk (r : Nat)
  /-- `words`: the words that the line's own reads return (log 22). -/
  | cpRk (r : Nat) (words : Vector Word 4)
  deriving DecidableEq, Repr

/-- The offset of word `j` of a group of registers at `base`. -/
def wordOffset (base j : Nat) : Nat := base + 4 * j

/-- Writes of the given words to consecutive registers from `base` on. -/
def writesFrom (base : Nat) (ws : List Word) : List HostEvent :=
  ws.zipIdx.map fun wj => .write 4 (wordOffset base wj.2) wj.1

/-- Reads of the four words of a block's registers from `base` on. -/
def readsFrom (base : Nat) : List HostEvent := (List.range 4).map fun j => .read 4 (wordOffset base j)

/-- A block's four words in order. -/
def blockWords (s : Block) : List Word := [s.word 0, s.word 1, s.word 2, s.word 3]

/-- R61: the accesses a line expands to, none for a key that is not 16, 24 or 32 bytes. -/
def HostLine.expand : HostLine → Option (List HostEvent)
  | .wr off v => some [.write 4 off v]
  | .rd off => some [.read 4 off]
  | .command i => some [.write 4 0x000 (encode i)]
  | .ldState h => some (writesFrom 0x010 (blockWords h))
  | .rdState => some (readsFrom 0x010)
  | .ldKey key =>
    if key.length = 16 ∨ key.length = 24 ∨ key.length = 32 then
      some (writesFrom 0x020 (keyWordsOf key) ++
        [.write 4 0x008 (BitVec.ofNat 32 key.length), .write 4 0x000 (encode .loadkey)])
    else none
  | .rdRk r => some (readsFrom (0x100 + 16 * r))
  | .rdIrk r => some (readsFrom (0x200 + 16 * r))
  | .cpRk r words => some (readsFrom (0x100 + 16 * r) ++ writesFrom 0x010 words.toList)

end Machine

end Sys2Proof
end

