-- ==== Sys2Proof/Config.lean ====
section
/-! DEFINITION. The two parameters the spec leaves open (00_scope.md R11, 70_reset_and_hazards.md R134).

Neither has a value here: no proof can see what it is, and no rule of the spec reads either
(logs 4 and 12). -/

namespace Sys2Proof.Config

/-- R11, R38: the platform address of the 4096-byte aperture. -/
opaque base : Nat

/-- R134: the open part of a command's latency, a function of the command word alone. -/
opaque latencyBeyondOne : Word → Nat

/-- R11, R134: `LATENCY(cmd)`, the number of clock cycles a command holds the bus: finite,
positive, and dependent on the command word alone. -/
def latency (w : Word) : Nat := latencyBeyondOne w + 1

end Sys2Proof.Config
end

