-- ==== Sys2Proof/Machine/Ports.lean ====
section
/-! DEFINITION. The core at the level of its ports: one clock cycle (70_reset_and_hazards.md R125, R126; 20_memory.md R47).

Every other rule of the spec is at the transaction level, and so are `step` and `exec`. This layer
puts the request and ready handshake over the same `performEvent`: it holds a CMD write on the bus
for `LATENCY` cycles, abandons it when reset is asserted, and answers a bus error on `err` and goes
on. -/

namespace Sys2Proof.Machine

/-- R125: the input ports in one cycle. -/
structure PortIn where
  rst : Bool
  req : Bool
  we : Bool
  size : BitVec 2
  addr : BitVec 12
  wdata : Word
  deriving DecidableEq, Repr

/-- R125: `size`: 0 = 8, 1 = 16, 2 = 32, 3 = 64 bits, here in bytes. -/
def bytesOfSize (size : BitVec 2) : Nat := 2 ^ size.toNat

/-- R125: the access the ports present. -/
def PortIn.event (p : PortIn) : HostEvent :=
  match p.we with
  | true => .write (bytesOfSize p.size) p.addr.toNat p.wdata
  | false => .read (bytesOfSize p.size) p.addr.toNat

/-- The access presented is a word write to CMD: the one kind that is held (R47; log 12). -/
def PortIn.writesCommand (p : PortIn) : Bool := p.we && p.size == 2 && p.addr == 0

/-- What the output ports say in one cycle. -/
inductive Response where
  /-- No access is presented, so none completes; the outputs mean nothing (log 13). -/
  | idle
  /-- `ready = 0`: the access presented does not complete in this cycle. -/
  | waiting
  /-- `ready = 1`, `err = 0`: the access completes; a read has its data on `rdata` (log 13). -/
  | completed (rdata : Option Word)
  /-- `ready = 1`, `err = 1`: a bus error response; a read returns no data (R115). -/
  | busError
  deriving DecidableEq, Repr

/-- R125: a CMD write held on the bus: its word and the cycles it still waits after this one. -/
structure HeldCommand where
  word : Word
  left : Nat
  deriving DecidableEq, Repr

/-- The core with the access its bus holds. -/
structure PortState where
  core : State
  held : Option HeldCommand
  deriving DecidableEq, Repr

/-- Why a cycle has no meaning. -/
inductive PortRefusal where
  /-- Raised when the host changes or drops an access before `ready = 1`, which R125 forbids and U10
  leaves out (log 14). Safe. -/
  | heldAccessChanged
  /-- Raised when a command has no meaning; no command does so. Safe. -/
  | commandRefused (r : Refusal)
  deriving DecidableEq, Repr

/-- R42: the data a completing read has on `rdata`. -/
def readData (e : HostEvent) (s : State) : Option Word :=
  match e with
  | .read n off =>
    match memRead n off s with
    | .ok v => some v
    | .error _ => none
  | .write _ _ _ => none
  | .reset => none

/-- The cycle in which the access presented completes: its results are committed, or it is a bus
error and no state changes (R115, R125). -/
def finishAccess (e : HostEvent) (s : State) : Except PortRefusal (PortState × Response) :=
  match performEvent e s with
  | .next t => .ok (⟨t, none⟩, .completed (readData e s))
  | .fault (.busError _) => .ok (⟨s, none⟩, .busError)
  | .refused r => .error (.commandRefused r)

/-- R126: a cycle with `rst = 1`: every piece of state takes its reset value, a command in progress
is abandoned and an access presented is not performed. -/
def resetCycle (p : PortIn) (b : PortState) : PortState × Response :=
  (⟨resetCore b.core, none⟩, if p.req then .waiting else .idle)

/-- A cycle with no command held: a CMD write begins to wait, any other access completes at once. -/
def freeCycle (p : PortIn) (s : State) : Except PortRefusal (PortState × Response) :=
  if p.req = false then .ok (⟨s, none⟩, .idle)
  else if p.writesCommand then .ok (⟨s, some ⟨p.wdata, Config.latency p.wdata - 1⟩⟩, .waiting)
  else finishAccess p.event s

/-- A cycle with a command held: it waits on, or completes. -/
def heldCycle (p : PortIn) (h : HeldCommand) (s : State) : Except PortRefusal (PortState × Response) :=
  if p.req && p.writesCommand && p.wdata == h.word then
    match h.left with
    | 0 => finishAccess p.event s
    | k + 1 => .ok (⟨s, some ⟨h.word, k⟩⟩, .waiting)
  else .error .heldAccessChanged

/-- R125, R126: one clock cycle: what the outputs say in it, and the state after its rising edge. -/
def clockEdge (p : PortIn) (b : PortState) : Except PortRefusal (PortState × Response) :=
  if p.rst then .ok (resetCycle p b)
  else
    match b.held with
    | none => freeCycle p b.core
    | some h => heldCycle p h b.core

/-- `k` cycles with the same inputs, as a host holds an access stable (R125): the state after them
and what each cycle's outputs said, in order. -/
def holdPorts (p : PortIn) : Nat → PortState → Except PortRefusal (PortState × List Response)
  | 0, b => .ok (b, [])
  | k + 1, b =>
    match clockEdge p b with
    | .error r => .error r
    | .ok (b', out) =>
      match holdPorts p k b' with
      | .error r => .error r
      | .ok (b'', outs) => .ok (b'', out :: outs)

/-- The ports of a host that presents a word write of `w` to CMD. -/
def commandPorts (w : Word) : PortIn := ⟨false, true, true, 2, 0, w⟩

/-- R11, R38: the offset in the aperture of a platform address, none outside it. -/
def apertureOffset (addr : Nat) : Option Nat :=
  if Config.base ≤ addr ∧ addr < Config.base + 4096 then some (addr - Config.base) else none

end Sys2Proof.Machine
end

