-- ==== Sys2Proof/Safety.lean ====
section
/-! DEFINITION. What counts as a safe run, and the invariants a run of AES-CORE keeps.

A run is safe when no access of it raises a bus error (60_exceptions.md R115: a claim must take "no bus
error" as a premise). -/

namespace Sys2Proof.Machine

/-- R115: the event raises no bus error. -/
def HostEvent.accepted : HostEvent → Bool
  | .read n off => (selectReg n off).isSome
  | .write n off _ => (selectReg n off).isSome
  | .reset => true

/-- No access still to be made raises a bus error. -/
def State.safe (s : State) : Prop := ∀ e ∈ s.pending, e.accepted = true

/-- R110: the commands that need a cipher instance and report NO_KEY without one. -/
def consumesKey : Instr → Bool
  | .addrk _ => true
  | .addirk _ => true
  | .round _ _ => true
  | .finalround _ => true
  | .invround _ => true
  | .invfinalround _ => true
  | .encrypt _ => true
  | .decrypt => true
  | .encryptn _ _ => true
  | .nop => false
  | .loadkey => false
  | .clearkey => false
  | .subbytes => false
  | .invsubbytes => false
  | .shiftrows => false
  | .invshiftrows => false
  | .mixcolumns => false
  | .invmixcolumns => false
  | .prevrk _ => false

/-- R37: the commands that write DATA: every state-transforming command and PREVRK. -/
def writesData : Instr → Bool
  | .nop => false
  | .loadkey => false
  | .clearkey => false
  | .subbytes => true
  | .invsubbytes => true
  | .shiftrows => true
  | .invshiftrows => true
  | .mixcolumns => true
  | .invmixcolumns => true
  | .addrk _ => true
  | .addirk _ => true
  | .round _ _ => true
  | .finalround _ => true
  | .invround _ => true
  | .invfinalround _ => true
  | .encrypt _ => true
  | .decrypt => true
  | .encryptn _ _ => true
  | .prevrk _ => true

/-- R37: the commands that write KEYSTATE, RK and IRK. -/
def writesInstance : Instr → Bool
  | .nop => false
  | .loadkey => true
  | .clearkey => true
  | .subbytes => false
  | .invsubbytes => false
  | .shiftrows => false
  | .invshiftrows => false
  | .mixcolumns => false
  | .invmixcolumns => false
  | .addrk _ => false
  | .addirk _ => false
  | .round _ _ => false
  | .finalround _ => false
  | .invround _ => false
  | .invfinalround _ => false
  | .encrypt _ => false
  | .decrypt => false
  | .encryptn _ _ => false
  | .prevrk _ => false

/-- R26: the legal values of KEYSTATE, `(0,0,0)`, `(1,4,10)`, `(1,6,12)` and `(1,8,14)`. -/
def KeyState.legal (k : KeyState) : Prop :=
  k = ⟨false, 0, 0⟩ ∨ k = ⟨true, 4, 10⟩ ∨ k = ⟨true, 6, 12⟩ ∨ k = ⟨true, 8, 14⟩

/-- R27: the instance is the one of a key: KEYSTATE, and RK and IRK, hold the key's size and its
schedules in 0..NR and zero above. -/
def State.holdsKey (s : State) (ks : KeySize) (key : List Byte) : Prop :=
  key.length = 4 * ks.words ∧ s.keystate = KeyState.loaded ks ∧
    ∀ r : Fin 15,
      s.rk[r] = (keyExpansion ks key).getD r.val zeroBlock ∧
      s.irk[r] = (inverseSchedule (keyExpansion ks key) ks.rounds).getD r.val zeroBlock

/-- R26, R27: the invariant of the cipher instance: there is none and RK and IRK are zero, or it is
the instance of some key of 16, 24 or 32 bytes. -/
def State.instanceInv (s : State) : Prop :=
  (s.keystate = KeyState.empty ∧ ∀ r : Fin 15, s.rk[r] = zeroBlock ∧ s.irk[r] = zeroBlock) ∨
    ∃ ks key, s.holdsKey ks key

/-- The states a run from reset can pass through: what the host wants to do next is its own affair,
and each step may be any host event. -/
inductive Reachable : State → Prop where
  | reset : Reachable State.reset
  | hostChooses (s : State) (events : List HostEvent) : Reachable s → Reachable { s with pending := events }
  | step (s t : State) : Reachable s → step s = .next t → Reachable t

end Sys2Proof.Machine
end

