-- ==== Sys2Proof/Certificates/Slice0/Obligations.lean ====
section
/-! DEFINITION. The statements about AES-CORE, in the order of the spec's files. -/

namespace Sys2Proof.Machine

/-! ### Shared phrases of the statements -/

/-- S after a command that completed with ERR = OK, none otherwise. -/
def okData (r : Result) : Option Block :=
  match r with
  | .next t => if t.err = .ok then some t.data else none
  | .fault _ => none
  | .refused _ => none

/-- The start of the spec's examples: the key 2b7e151628aed2a6abf7158809cf4f3c staged, KEYLEN = 16,
and S the block `h`. -/
def stagedExample (h : BitVec 128) : State :=
  { State.reset with
    key := #v[0x2b7e1516, 0x28aed2a6, 0xabf71588, 0x09cf4f3c, 0, 0, 0, 0]
    keylen := 16
    data := Block.ofHex h }

/-- The spec's example key, 2b7e151628aed2a6abf7158809cf4f3c. -/
def exampleKey : List Byte :=
  [0x2b, 0x7e, 0x15, 0x16, 0x28, 0xae, 0xd2, 0xa6, 0xab, 0xf7, 0x15, 0x88, 0x09, 0xcf, 0x4f, 0x3c]

/-- R86: `w[i]` of a key's expansion. -/
def scheduleWord (ks : KeySize) (key : List Byte) (i : Nat) : Word := (expandedWords ks key).getD i 0

/-- R58: a word with the row's OP that does not match the row is illegal: ERR becomes
ILLEGAL_COMMAND and nothing else changes. -/
def IllegalForms (pattern mask : Word) : Prop :=
  ∀ (w : Word) (s : State), opField w = opField pattern → w &&& mask ≠ pattern →
    execute w s = .next { s with err := .illegalCommand }

/-- The rule of a command that applies `f` to S and one block of a round-key file: its encoding, its
effect for every index up to NR, and its two errors in their order. -/
def KeyedCommandRule (word : Nat → Word) (mk : Nat → Instr) (f : Block → Block → Block)
    (file : State → Vector Block 15) : Prop :=
  (∀ r, r ≤ 15 → decode (word r) = .ok (mk r)) ∧
  (∀ (r : Fin 15) (s : State), s.keystate.kv = true → r.val ≤ s.keystate.nr.toNat →
    exec (mk r.val) s = .next { s with data := f s.data (file s)[r], err := .ok }) ∧
  (∀ (r : Nat) (s : State), s.keystate.kv = false → exec (mk r) s = .next { s with err := .noKey }) ∧
  (∀ (r : Nat) (s : State), s.keystate.kv = true → r > s.keystate.nr.toNat →
    exec (mk r) s = .next { s with err := .badIndex })

/-- R110: the error a decoded command meets first, by the causes the table gives each code. -/
def firstError (i : Instr) (s : State) : ErrCode :=
  let keyed (r : Nat) : ErrCode :=
    if s.keystate.kv = false then .noKey else if r > s.keystate.nr.toNat then .badIndex else .ok
  match i with
  | .loadkey => if s.keylen = 16 ∨ s.keylen = 24 ∨ s.keylen = 32 then .ok else .invalidKeySize
  | .addrk r => keyed r
  | .addirk r => keyed r
  | .round r _ => keyed r
  | .finalround r => keyed r
  | .invround r => keyed r
  | .invfinalround r => keyed r
  | .encrypt _ => if s.keystate.kv = false then .noKey else .ok
  | .decrypt => if s.keystate.kv = false then .noKey else .ok
  | .encryptn n _ =>
    if s.keystate.kv = false then .noKey
    else if s.keystate.nk ≠ 4 then .keySizeMismatch
    else if n = 0 ∨ n > s.keystate.nr.toNat then .badIndex
    else .ok
  | .prevrk k => if k > 9 then .badIndex else .ok
  | .nop => .ok
  | .clearkey => .ok
  | .subbytes => .ok
  | .invsubbytes => .ok
  | .shiftrows => .ok
  | .invshiftrows => .ok
  | .mixcolumns => .ok
  | .invmixcolumns => .ok

/-- R58: the words the rule lists as illegal. -/
def ListedIllegal (w : Word) : Prop :=
  (0x03 ≤ opField w ∧ opField w ≤ 0x0F) ∨ (0x18 ≤ opField w ∧ opField w ≤ 0x1F) ∨
  (0x24 ≤ opField w ∧ opField w ≤ 0x2F) ∨ (0x33 ≤ opField w ∧ opField w ≤ 0x3F) ∨ 0x41 ≤ opField w ∨
  rsv1Field w ≠ 0 ∨ rsv2Field w ≠ 0 ∨
  (idxField w ≠ 0 ∧
    opField w ∈ ([0x00, 0x01, 0x02, 0x10, 0x11, 0x12, 0x13, 0x14, 0x15, 0x30, 0x31] : List Byte)) ∨
  (fastField w = true ∧
    opField w ∈ ([0x00, 0x01, 0x02, 0x10, 0x11, 0x12, 0x13, 0x14, 0x15, 0x16, 0x17, 0x21, 0x22, 0x23, 0x31,
      0x40] : List Byte))

/-- R39, R40, R41: the accesses that reach no register: a width other than 32 bits, a misaligned
offset, or one outside every range of the register map. -/
def BadAccess (n off : Nat) : Prop :=
  n ≠ 4 ∨ off % 4 ≠ 0 ∨ off = 0x00C ∨ (0x040 ≤ off ∧ off ≤ 0x0FF) ∨ (0x1F0 ≤ off ∧ off ≤ 0x1FF) ∨ 0x2F0 ≤ off

end Sys2Proof.Machine

open Sys2Proof Sys2Proof.Machine

/-! ### Encoding (30_encoding.md) -/

/-- Words written out bit by bit from the encodings of R55 and R57, one or more per opcode group. -/
def Obligations.WordsWrittenFromTheTableDecode : Prop :=
  decode 0b00000000000000000000000000000000 = .ok .nop ∧
  decode 0b00000000000000000000000000000001 = .ok .loadkey ∧
  decode 0b00000000000000000000000000010100 = .ok .mixcolumns ∧
  decode 0b00000000000000000000110100010110 = .ok (.addrk 13) ∧
  decode 0b00000000000000010000001100100000 = .ok (.round 3 true) ∧
  decode 0b00000000000000000000101000100011 = .ok (.invfinalround 10) ∧
  decode 0b00000000000000010000000000110000 = .ok (.encrypt true) ∧
  decode 0b00000000000000000000010000110010 = .ok (.encryptn 4 false) ∧
  decode 0b00000000000000000000100101000000 = .ok (.prevrk 9) ∧
  decode 0b00000000000000000001000000100000 = .error .reservedNonzero

/-- R57: the map is the table's; a word encodes a command when `w & mask = match` for a row, exactly
one row matches a legal word, and the masks differ only in the IDX and F bits the format takes. -/
def Obligations.OpcodeMapDecidesEveryWord : Prop :=
  (∀ (w : Word) (i : Instr), decode w = .ok i →
    ∃ row ∈ opcodeRows, row.mnemonic = i.mnemonic ∧ row.hits w = true ∧
      ∀ other ∈ opcodeRows, other.hits w = true → other = row) ∧
  (∀ w : Word, ∀ row ∈ opcodeRows, row.hits w = true → ∃ i, decode w = .ok i ∧ i.mnemonic = row.mnemonic) ∧
  (∀ row ∈ opcodeRows,
    row.pattern = (opField row.pattern).setWidth 32 ∧
    row.mask = 0xFFFFFFFF ^^^ (if row.format.takesIdx then 0x00000F00 else 0) ^^^
      (if row.format.takesFast then 0x00010000 else 0)) ∧
  opcodeRows.map (fun row => (opField row.pattern, row.mnemonic, row.format)) =
    [(0x00, "NOP", .n), (0x01, "LOADKEY", .n), (0x02, "CLEARKEY", .n), (0x10, "SUBBYTES", .n),
      (0x11, "INVSUBBYTES", .n), (0x12, "SHIFTROWS", .n), (0x13, "INVSHIFTROWS", .n), (0x14, "MIXCOLUMNS", .n),
      (0x15, "INVMIXCOLUMNS", .n), (0x16, "ADDRK", .i), (0x17, "ADDIRK", .i), (0x20, "ROUND", .idxFast),
      (0x21, "FINALROUND", .i), (0x22, "INVROUND", .i), (0x23, "INVFINALROUND", .i), (0x30, "ENCRYPT", .f),
      (0x31, "DECRYPT", .n), (0x32, "ENCRYPTN", .idxFast), (0x40, "PREVRK", .i)]

/-- R58: the words that match no row are exactly the listed ones, and each raises ILLEGAL_COMMAND: it
changes nothing but ERR and the write to CMD completes normally. -/
def Obligations.IllegalWordsRaiseIllegalCommand : Prop :=
  (∀ w : Word, (∀ row ∈ opcodeRows, row.hits w = false) ↔ ListedIllegal w) ∧
  (∀ (w : Word) (s : State), ListedIllegal w → memWrite 4 0x000 w s = .next { s with err := .illegalCommand })

/-- Decoding an encoded well-formed command gives the command back, with every operand. -/
def Obligations.EncodeThenDecodeGivesTheCommandBack : Prop :=
  ∀ i : Instr, i.wellFormed = true → decode (encode i) = .ok i

/-- Each legal word has one meaning and each command one word: encoding what a word decodes to gives
the word back, and what decodes is well-formed. -/
def Obligations.DecodeThenEncodeGivesTheWordBack : Prop :=
  ∀ (w : Word) (i : Instr), decode w = .ok i → i.wellFormed = true ∧ encode i = w

/-- R60: the assembler's output is the command's encoding `OP | idx<<8 | f<<16`; it refuses an IDX
above 15 and `.F` on a format N or I mnemonic; the rule's examples of the syntax. -/
def Obligations.AssemblerWritesTheEncoding : Prop :=
  (∀ i : Instr, i.wellFormed = true → assemble i.asm = some (encode i)) ∧
  (∀ (l : AsmLine) (w : Word), assemble l = some w →
    ∃ row ∈ opcodeRows, row.mnemonic = l.mnemonic ∧
      w = (opField row.pattern).setWidth 32 ||| (BitVec.ofNat 32 (l.idx.getD 0) <<< 8) |||
        (BitVec.ofNat 32 l.fast.toNat <<< 16)) ∧
  (∀ (m : String) (f : Bool) (k : Nat), k > 15 → assemble ⟨m, f, some k⟩ = none) ∧
  (∀ row ∈ opcodeRows, row.format = .n ∨ row.format = .i → ∀ k, assemble ⟨row.mnemonic, true, k⟩ = none) ∧
  [Instr.nop, .loadkey, .addrk 0, .round 3 false, .round 3 true, .encrypt true, .encryptn 4 false, .encryptn 4 true,
      .prevrk 9].map (fun i => i.asm.text) =
    ["NOP", "LOADKEY", "ADDRK 0", "ROUND 3", "ROUND.F 3", "ENCRYPT.F", "ENCRYPTN 4", "ENCRYPTN.F 4", "PREVRK 9"]

/-! ### The step (20_memory.md, 70_reset_and_hazards.md) -/

/-- A step whose oldest access is a word write of a legal command to CMD is that command's `exec`, at the
state with the access taken from the queue; an illegal word is ILLEGAL_COMMAND there. The state
`withFetchWord` makes has the word as its oldest access. With no access left, the core is idle (the
model's reading of R124, log 3). The queue of accesses is the model's choice (log 1). -/
def Obligations.StepRunsTheDecodedCommand : Prop :=
  (∀ (s : State) (rest : List HostEvent) (w : Word) (i : Instr),
    s.pending = .write 4 0x000 w :: rest → decode w = .ok i → step s = exec i { s with pending := rest }) ∧
  (∀ (s : State) (rest : List HostEvent) (w : Word) (e : IllegalWord),
    s.pending = .write 4 0x000 w :: rest → decode w = .error e →
      step s = .next { s with pending := rest, err := .illegalCommand }) ∧
  (∀ (s : State) (nbits w : Nat) (i : Instr), decodeTableWord nbits w = some i →
    step (s.withFetchWord nbits w) = exec i s) ∧
  (∀ s : State, s.pending = [] → step s = .next s)

/-! ### Blocks and field tables (00_scope.md, 40_field_tables.md) -/

/-- R14, R15: byte `i` is in row `i mod 4` and column `i div 4`; word `j` is column `j` big-endian,
row 0 in bits 31:24; `B(w)` splits a word into those bytes. -/
def Obligations.BlockWordsAreBigEndianColumns : Prop :=
  (∀ (s : Block) (r c : Fin 4), s.at r c = s.byte ⟨r.val + 4 * c.val, by omega⟩) ∧
  (∀ (s : Block) (j : Fin 4),
    s.word j =
      ((s.byte ⟨4 * j.val, by omega⟩).setWidth 32 <<< 24) |||
        ((s.byte ⟨4 * j.val + 1, by omega⟩).setWidth 32 <<< 16) |||
        ((s.byte ⟨4 * j.val + 2, by omega⟩).setWidth 32 <<< 8) |||
        (s.byte ⟨4 * j.val + 3, by omega⟩).setWidth 32) ∧
  (∀ (s : Block) (j : Fin 4),
    (s.word j).extractLsb' 24 8 = s.at 0 j ∧ (s.word j).extractLsb' 16 8 = s.at 1 j ∧
      (s.word j).extractLsb' 8 8 = s.at 2 j ∧ (s.word j).extractLsb' 0 8 = s.at 3 j) ∧
  (∀ (s : Block) (j : Fin 4), Column.ofWord (s.word j) = s.col j) ∧
  (∀ w : Word, Column.ofWord w =
    ⟨w.extractLsb' 24 8, w.extractLsb' 16 8, w.extractLsb' 8 8, w.extractLsb' 0 8⟩)

/-- R63, R64: `xtime` reduces by 0x11B; `gmul` adds the multiples `x^i · a` for the bits of `b`; it is
commutative and associative, with 1 and 0 as the rule says, and distributes over XOR. R63 and R64 are the
spec's own derivation from R62. -/
def Obligations.GmulIsTheFieldProduct : Prop :=
  (∀ a : Byte, xtime a = ((a.setWidth 9 <<< 1) ^^^ (if a.getLsbD 7 then 0x11B#9 else 0x000#9)).setWidth 8) ∧
  xtime 0x57 = 0xAE ∧ xtime 0xAE = 0x47 ∧ xtime 0x80 = 0x1B ∧
  (∀ a b : Byte, gmul a b =
    (List.range 8).foldl (fun p i => if b.getLsbD i then p ^^^ xtime^[i] a else p) 0x00) ∧
  (∀ a b : Byte, gmul a b = gmul b a) ∧
  (∀ a b c : Byte, gmul (gmul a b) c = gmul a (gmul b c)) ∧
  (∀ a : Byte, gmul a 0x01 = a ∧ gmul a 0x00 = 0x00) ∧
  (∀ a b c : Byte, gmul a (b ^^^ c) = gmul a b ^^^ gmul a c) ∧
  gmul 0x57 0x13 = 0xFE

/-- R65: each printed multiply table holds `c • a` at every `a`, for c in 2, 3, 9, 11, 13, 14, and the
model's table is that function. R65 is the spec's own derivation from R64. -/
def Obligations.PrintedMultiplyTablesAreGmul : Prop :=
  printedMulTables.map Prod.fst = [0x02, 0x03, 0x09, 0x0B, 0x0D, 0x0E] ∧
  ∀ t ∈ printedMulTables, ∀ a : Byte, tableEntry t.2 a = gmul t.1 a ∧ mulTable t.1 a = gmul t.1 a

/-- R66, R67: SBOX and INV_SBOX are mutually inverse bijections; `SBOX[a]` is the affine map of the field
inverse of `a`, the unique `b` with `a • b = 1` (0 for 0). That `SBOX[INV_SBOX[y]] = y` is the spec's own
derivation in R66. -/
def Obligations.SboxIsTheAffineMapOfTheInverse : Prop :=
  (∀ a : Byte, invSbox (sbox a) = a) ∧ (∀ a : Byte, sbox (invSbox a) = a) ∧
  Function.Bijective sbox ∧ Function.Bijective invSbox ∧
  (∀ a : Byte, ∃ b : Byte,
    ((a = 0x00 ∧ b = 0x00) ∨ (a ≠ 0x00 ∧ gmul a b = 0x01 ∧ ∀ b' : Byte, gmul a b' = 0x01 → b' = b)) ∧
    ∀ i, i < 8 → (sbox a).getLsbD i =
      (b.getLsbD i ^^ b.getLsbD ((i + 4) % 8) ^^ b.getLsbD ((i + 5) % 8) ^^ b.getLsbD ((i + 6) % 8) ^^
        b.getLsbD ((i + 7) % 8) ^^ (0x63 : Byte).getLsbD i)) ∧
  sbox 0x00 = 0x63 ∧ sbox 0x01 = 0x7C ∧ sbox 0x53 = 0xED

/-- R70: the round constants, the ones each key size consumes, and the constant as a word. Which constants
a key size consumes is the spec's own derivation in R70. So is the formula of PREVRK's word 0, in R93. -/
def Obligations.RoundConstantsArePowersOfX : Prop :=
  rcon 1 = 0x01 ∧ (∀ i, 1 ≤ i → rcon (i + 1) = xtime (rcon i)) ∧
  (List.range' 1 10).map rcon = [0x01, 0x02, 0x04, 0x08, 0x10, 0x20, 0x40, 0x80, 0x1B, 0x36] ∧
  (∀ i, rconWord i = (rcon i).setWidth 32 <<< 24) ∧
  (∀ ks : KeySize,
    (((List.range (4 * ks.rounds + 4)).filter (fun i => ks.words ≤ i ∧ i % ks.words = 0)).map (· / ks.words)) =
      List.range' 1 (match ks with | .aes128 => 10 | .aes192 => 8 | .aes256 => 7)) ∧
  (∀ (k : Block) (i : Nat), (prevRoundKey k i).word 0 =
    k.word 0 ^^^ subWord (rotWord (k.word 3 ^^^ k.word 2)) ^^^ rconWord (i + 1)) ∧
  (∀ (i : Nat) (s : State), i > 9 → exec (.prevrk i) s = .next { s with err := .badIndex })

/-! ### The transforms as functions (41_cipher_core.md) -/

/-- R71, R72, R75: SubBytes and AddRoundKey act byte by byte, ShiftRows rotates row `r` left by `r`, and
the inverses as the rules say; the byte permutations P and Q; AddRoundKey word by word. P and Q, and the
word form, are the spec's own derivations in R72 and R75. -/
def Obligations.BytewiseTransformsFollowTheirFormulas : Prop :=
  (∀ (s : Block) (i : Fin 16), (subBytes s).byte i = sbox (s.byte i) ∧ (invSubBytes s).byte i = invSbox (s.byte i)) ∧
  (∀ (s : Block) (r c : Fin 4),
    (shiftRows s).at r c = s.at r ⟨(c.val + r.val) % 4, by omega⟩ ∧
    (invShiftRows s).at r c = s.at r ⟨(c.val + 4 - r.val) % 4, by omega⟩) ∧
  (∀ (s : Block) (i : Fin 16),
    (shiftRows s).byte i = s.byte (([0, 5, 10, 15, 4, 9, 14, 3, 8, 13, 2, 7, 12, 1, 6, 11] : List (Fin 16)).getD i.val 0) ∧
    (invShiftRows s).byte i =
      s.byte (([0, 13, 10, 7, 4, 1, 14, 11, 8, 5, 2, 15, 12, 9, 6, 3] : List (Fin 16)).getD i.val 0)) ∧
  (∀ (s k : Block) (i : Fin 16), (addRoundKey s k).byte i = s.byte i ^^^ k.byte i) ∧
  (∀ (s k : Block) (j : Fin 4), (addRoundKey s k).word j = s.word j ^^^ k.word j)

/-- R73, R74: the two matrices on each column, and that each is the other's inverse. -/
def Obligations.MixColumnsMultipliesByTheMatrix : Prop :=
  (∀ (s : Block) (c : Fin 4),
    (mixColumns s).at 0 c = gmul 0x02 (s.at 0 c) ^^^ gmul 0x03 (s.at 1 c) ^^^ s.at 2 c ^^^ s.at 3 c ∧
    (mixColumns s).at 1 c = s.at 0 c ^^^ gmul 0x02 (s.at 1 c) ^^^ gmul 0x03 (s.at 2 c) ^^^ s.at 3 c ∧
    (mixColumns s).at 2 c = s.at 0 c ^^^ s.at 1 c ^^^ gmul 0x02 (s.at 2 c) ^^^ gmul 0x03 (s.at 3 c) ∧
    (mixColumns s).at 3 c = gmul 0x03 (s.at 0 c) ^^^ s.at 1 c ^^^ s.at 2 c ^^^ gmul 0x02 (s.at 3 c)) ∧
  (∀ (s : Block) (c : Fin 4),
    (invMixColumns s).at 0 c =
      gmul 0x0E (s.at 0 c) ^^^ gmul 0x0B (s.at 1 c) ^^^ gmul 0x0D (s.at 2 c) ^^^ gmul 0x09 (s.at 3 c) ∧
    (invMixColumns s).at 1 c =
      gmul 0x09 (s.at 0 c) ^^^ gmul 0x0E (s.at 1 c) ^^^ gmul 0x0B (s.at 2 c) ^^^ gmul 0x0D (s.at 3 c) ∧
    (invMixColumns s).at 2 c =
      gmul 0x0D (s.at 0 c) ^^^ gmul 0x09 (s.at 1 c) ^^^ gmul 0x0E (s.at 2 c) ^^^ gmul 0x0B (s.at 3 c) ∧
    (invMixColumns s).at 3 c =
      gmul 0x0B (s.at 0 c) ^^^ gmul 0x0D (s.at 1 c) ^^^ gmul 0x09 (s.at 2 c) ^^^ gmul 0x0E (s.at 3 c)) ∧
  (∀ a : Column, invMixColumn (mixColumn a) = a ∧ mixColumn (invMixColumn a) = a) ∧
  (∀ a : Byte, tableEntry mul2Rows a = gmul 0x02 a ∧ tableEntry mul3Rows a = gmul 0x03 a)

/-- R76: the laws of the transforms. They are the spec's own derivation. -/
def Obligations.TransformLaws : Prop :=
  (∀ s : Block, invSubBytes (subBytes s) = s ∧ subBytes (invSubBytes s) = s) ∧
  (∀ s : Block, invShiftRows (shiftRows s) = s ∧ shiftRows (invShiftRows s) = s) ∧
  (∀ s : Block, invMixColumns (mixColumns s) = s ∧ mixColumns (invMixColumns s) = s) ∧
  (∀ s k : Block, addRoundKey (addRoundKey s k) k = s) ∧
  (∀ s : Block, subBytes (shiftRows s) = shiftRows (subBytes s) ∧
    invSubBytes (invShiftRows s) = invShiftRows (invSubBytes s)) ∧
  (∀ s k : Block, mixColumns (addRoundKey s k) = addRoundKey (mixColumns s) (mixColumns k) ∧
    invMixColumns (addRoundKey s k) = addRoundKey (invMixColumns s) (invMixColumns k))

/-! ### The key schedule as functions (42_key_schedule.md) -/

/-- R85: RotWord, SubWord and the round constant on the bytes of a word. -/
def Obligations.KeyScheduleWordOperations : Prop :=
  (∀ a0 a1 a2 a3 : Byte,
    rotWord (Column.toWord ⟨a0, a1, a2, a3⟩) = Column.toWord ⟨a1, a2, a3, a0⟩ ∧
    subWord (Column.toWord ⟨a0, a1, a2, a3⟩) = Column.toWord ⟨sbox a0, sbox a1, sbox a2, sbox a3⟩) ∧
  (∀ w : Word, rotWord w = rotl8 w ∧ rotl8 w = (w <<< 8) ||| (w >>> 24)) ∧
  (∀ i, rconWord i = (rcon i).setWidth 32 <<< 24 ∧ Column.ofWord (rconWord i) = ⟨rcon i, 0, 0, 0⟩)

/-- R86: the Rijndael recurrence, the packing into round keys, and the rule's example. -/
def Obligations.KeyExpansionFollowsTheRecurrence : Prop :=
  (∀ (ks : KeySize) (key : List Byte), key.length = 4 * ks.words →
    (expandedWords ks key).length = 4 * (ks.rounds + 1) ∧
    (∀ i, i < ks.words → scheduleWord ks key i =
      ((key.getD (4 * i) 0).setWidth 32 <<< 24) ||| ((key.getD (4 * i + 1) 0).setWidth 32 <<< 16) |||
        ((key.getD (4 * i + 2) 0).setWidth 32 <<< 8) ||| (key.getD (4 * i + 3) 0).setWidth 32) ∧
    (∀ i, ks.words ≤ i → i < 4 * (ks.rounds + 1) → scheduleWord ks key i = scheduleWord ks key (i - ks.words) ^^^
      (if i % ks.words = 0 then subWord (rotWord (scheduleWord ks key (i - 1))) ^^^ (rcon (i / ks.words)).setWidth 32 <<< 24
       else if ks.words = 8 ∧ i % ks.words = 4 then subWord (scheduleWord ks key (i - 1))
       else scheduleWord ks key (i - 1))) ∧
    (keyExpansion ks key).length = ks.rounds + 1 ∧
    (∀ (r : Nat) (j : Fin 4), r ≤ ks.rounds → ((keyExpansion ks key).getD r zeroBlock).word j = scheduleWord ks key (4 * r + j.val)) ∧
    (∀ k : Fin 16, ((keyExpansion ks key).getD 0 zeroBlock).byte k = key.getD k.val 0)) ∧
  [KeySize.aes128, .aes192, .aes256].map (fun ks => (ks.words, ks.rounds, 4 * (ks.rounds + 1))) =
    [(4, 10, 44), (6, 12, 52), (8, 14, 60)] ∧
  scheduleWord .aes128 exampleKey 4 = 0xa0fafe17 ∧
  (keyExpansion .aes128 exampleKey).getD 1 zeroBlock = Block.ofHex 0xa0fafe1788542cb123a339392a6c7605

/-- R87: the forward sequence reversed, with InvMixColumns on every interior entry; the example. -/
def Obligations.InverseScheduleReversesAndMixes : Prop :=
  (∀ (rks : List Block) (nr : Nat), rks.length = nr + 1 →
    (inverseSchedule rks nr).length = nr + 1 ∧
    (∀ j, j ≤ nr → (inverseSchedule rks nr).getD j zeroBlock =
      if j = 0 ∨ j = nr then rks.getD (nr - j) zeroBlock else invMixColumns (rks.getD (nr - j) zeroBlock)) ∧
    (inverseSchedule rks nr).getD 0 zeroBlock = rks.getD nr zeroBlock ∧
    (inverseSchedule rks nr).getD nr zeroBlock = rks.getD 0 zeroBlock) ∧
  (inverseSchedule (keyExpansion .aes128 exampleKey) 10).getD 0 zeroBlock =
    Block.ofHex 0xd014f9a8c9ee2589e13f0cc8b6630ca6 ∧
  (inverseSchedule (keyExpansion .aes128 exampleKey) 10).getD 1 zeroBlock =
    Block.ofHex 0x0c7b5a631319eafeb0398890664cfbb4

/-- R88: the expansion is prefix-stable; for AES-128 round key `r+1` is a function of round key `r` and
`r` alone, and PrevRoundKey is its inverse for every `i` in 0..9. Both laws are the spec's own derivations
in R88. -/
def Obligations.ScheduleIsPrefixStableAndInvertible : Prop :=
  (∀ (ks : KeySize) (key : List Byte) (n : Nat), key.length = 4 * ks.words → n ≤ ks.rounds →
    ∀ r, r ≤ n →
      roundKeyOf (expandNewestFirst ks.words (keyWordsOf key) (4 * (n + 1) - ks.words)).reverse r =
        (keyExpansion ks key).getD r zeroBlock) ∧
  (∀ (key key' : List Byte) (r : Nat), key.length = 16 → key'.length = 16 → r ≤ 9 →
    (keyExpansion .aes128 key).getD r zeroBlock = (keyExpansion .aes128 key').getD r zeroBlock →
    (keyExpansion .aes128 key).getD (r + 1) zeroBlock = (keyExpansion .aes128 key').getD (r + 1) zeroBlock) ∧
  (∀ (key : List Byte) (i : Nat), key.length = 16 → i ≤ 9 →
    prevRoundKey ((keyExpansion .aes128 key).getD (i + 1) zeroBlock) i = (keyExpansion .aes128 key).getD i zeroBlock)

/-! ### Rounds and ciphers (43_cipher_driver.md, sections 1 and 2) -/

/-- R95, R96, R97: the round functions, and the cipher of `n` rounds: round key 0 first, `n - 1` full
rounds, then one final round with round key `n`. -/
def Obligations.CipherComposesItsRounds : Prop :=
  (∀ s k : Block, fullRound s k = addRoundKey (mixColumns (shiftRows (subBytes s))) k ∧
    finalRound s k = addRoundKey (shiftRows (subBytes s)) k ∧
    invRound s k = addRoundKey (invMixColumns (invShiftRows (invSubBytes s))) k ∧
    invFinalRound s k = addRoundKey (invShiftRows (invSubBytes s)) k) ∧
  (∀ (s : Block) (keys : Nat → Block) (n : Nat), 1 ≤ n →
    cipherBy false s keys n =
      finalRound ((List.range' 1 (n - 1)).foldl (fun t r => fullRound t (keys r)) (addRoundKey s (keys 0))) (keys n)) ∧
  (∀ (s : Block) (keys : Nat → Block), cipherBy false s keys 1 = finalRound (addRoundKey s (keys 0)) (keys 1))

/-- R98: the equivalent inverse cipher, and that it undoes the cipher when its keys are the inverse
schedule of the cipher's, for every block and every key size. The round trip is the spec's own derivation
in R98. -/
def Obligations.EquivalentInverseCipherUndoesTheCipher : Prop :=
  (∀ (s : Block) (keys : Nat → Block) (n : Nat), 1 ≤ n →
    eqInvCipher s keys n =
      invFinalRound ((List.range' 1 (n - 1)).foldl (fun t r => invRound t (keys r)) (addRoundKey s (keys 0)))
        (keys n)) ∧
  (∀ (ks : KeySize) (rks : List Block) (s : Block), rks.length = ks.rounds + 1 →
    eqInvCipher (cipherBy false s (fun r => rks.getD r zeroBlock) ks.rounds)
      (fun r => (inverseSchedule rks ks.rounds).getD r zeroBlock) ks.rounds = s)

/-- R99, R100: the four T-tables, the full round by table lookup, and that it equals the byte-oriented
full round for every block and round key, so that the two ciphers agree. The entries and the equality are
the spec's own derivations in R99 and R100. -/
def Obligations.TTableRoundEqualsTheByteRound : Prop :=
  (∀ x : Byte,
    tTable0 x = Column.toWord ⟨gmul 0x02 (sbox x), sbox x, sbox x, gmul 0x03 (sbox x)⟩ ∧
    tTable1 x = Column.toWord ⟨gmul 0x03 (sbox x), gmul 0x02 (sbox x), sbox x, sbox x⟩ ∧
    tTable2 x = Column.toWord ⟨sbox x, gmul 0x03 (sbox x), gmul 0x02 (sbox x), sbox x⟩ ∧
    tTable3 x = Column.toWord ⟨sbox x, sbox x, gmul 0x03 (sbox x), gmul 0x02 (sbox x)⟩ ∧
    tTable1 x = rotr8 (tTable0 x) ∧ tTable2 x = rotr8 (tTable1 x) ∧ tTable3 x = rotr8 (tTable2 x)) ∧
  tTable0 0x00 = 0xC66363A5 ∧ tTable0 0x01 = 0xF87C7C84 ∧ tTable0 0x53 = 0xC1EDED2C ∧ tTable0 0xFF = 0x2C16163A ∧
  tTable1 0x00 = 0xA5C66363 ∧ tTable2 0x00 = 0x63A5C663 ∧ tTable3 0x00 = 0x6363A5C6 ∧
  (∀ (s k : Block) (c : Fin 4),
    (fullRoundT s k).word c = tTable0 (s.at 0 c) ^^^ tTable1 (s.at 1 ⟨(c.val + 1) % 4, by omega⟩) ^^^
      tTable2 (s.at 2 ⟨(c.val + 2) % 4, by omega⟩) ^^^ tTable3 (s.at 3 ⟨(c.val + 3) % 4, by omega⟩) ^^^ k.word c) ∧
  (∀ s k : Block, fullRoundT s k = fullRound s k) ∧
  (∀ (s : Block) (keys : Nat → Block) (n : Nat), 1 ≤ n →
    cipherBy true s keys n =
        finalRound ((List.range' 1 (n - 1)).foldl (fun t r => fullRoundT t (keys r)) (addRoundKey s (keys 0))) (keys n) ∧
      cipherBy true s keys n = cipherBy false s keys n)

/-- R101: the result of ROUND, ENCRYPT and ENCRYPTN does not depend on F, and no inverse command
takes F. -/
def Obligations.FastBitChangesNoResult : Prop :=
  (∀ (r : Nat) (s : State), exec (.round r true) s = exec (.round r false) s) ∧
  (∀ s : State, exec (.encrypt true) s = exec (.encrypt false) s) ∧
  (∀ (n : Nat) (s : State), exec (.encryptn n true) s = exec (.encryptn n false) s) ∧
  (∀ (w : Word) (s : State), fastField w = true →
    opField w ∈ ([0x11, 0x13, 0x15, 0x17, 0x22, 0x23, 0x31] : List Byte) →
    execute w s = .next { s with err := .illegalCommand })

/-! ### The commands: instance control (42_key_schedule.md, 43_cipher_driver.md) -/

/-- R109: NOP writes ERR = OK and nothing else. -/
def Obligations.NopOnlyClearsErr : Prop :=
  decode 0x00000000 = .ok .nop ∧
  (∀ s : State, exec .nop s = .next { s with err := .ok }) ∧
  IllegalForms 0x00000000 0xFFFFFFFF ∧
  (∀ s : State, statusWord s = 0x00003000 → ∃ t, exec .nop s = .next t ∧ statusWord t = 0x00000000)

/-- R89, R90: LOADKEY with KEYLEN 16, 24 or 32 constructs the instance of the staged key; any other
KEYLEN fails; later writes to KEY and KEYLEN do not change the instance. -/
def Obligations.LoadkeyConstructsTheInstance : Prop :=
  decode 0x00000001 = .ok .loadkey ∧
  (∀ (ks : KeySize) (s : State), s.keylen = BitVec.ofNat 32 (4 * ks.words) →
    ∃ (key : List Byte) (rk irk : Vector Block 15),
      exec .loadkey s = .next
        { s with keystate := ⟨true, BitVec.ofNat 4 ks.words, BitVec.ofNat 4 ks.rounds⟩, rk := rk, irk := irk, err := .ok } ∧
      key.length = 4 * ks.words ∧
      (∀ (j : Fin 8) (k : Fin 4), j.val < ks.words →
        key.getD (4 * j.val + k.val) 0 = s.key[j].extractLsb' (24 - 8 * k.val) 8) ∧
      (∀ r : Fin 15,
        rk[r] = (if r.val ≤ ks.rounds then (keyExpansion ks key).getD r.val zeroBlock else zeroBlock) ∧
        irk[r] =
          (if r.val ≤ ks.rounds then (inverseSchedule (keyExpansion ks key) ks.rounds).getD r.val zeroBlock
           else zeroBlock))) ∧
  [KeySize.aes128, .aes192, .aes256].map (fun ks => (4 * ks.words, ks.words, ks.rounds)) =
    [(16, 4, 10), (24, 6, 12), (32, 8, 14)] ∧
  (∀ s : State, s.keylen ≠ 16 → s.keylen ≠ 24 → s.keylen ≠ 32 →
    exec .loadkey s = .next
      { s with
        keystate := ⟨false, 0, 0⟩
        rk := Vector.replicate 15 zeroBlock
        irk := Vector.replicate 15 zeroBlock
        err := .invalidKeySize }) ∧
  IllegalForms 0x00000001 0xFFFFFFFF ∧
  (∀ (s : State) (v : Word) (j : Fin 8),
    memWrite 4 (0x020 + 4 * j.val) v s = .next { s with key := s.key.set j.val v j.isLt } ∧
    memWrite 4 0x008 v s = .next { s with keylen := v }) ∧
  (∃ t, exec .loadkey (stagedExample 0) = .next t ∧ statusWord t = 0x00000A41 ∧
    t.rk[10] = Block.ofHex 0xd014f9a8c9ee2589e13f0cc8b6630ca6)

/-- R91: a LOADKEY whose KEYLEN is not 16, 24 or 32 leaves no instance at all, with DATA, KEY and
KEYLEN unchanged, and the next key-consuming command reports NO_KEY. -/
def Obligations.LoadkeyWithIllegalLengthDestroysTheInstance : Prop :=
  ∀ s : State, s.keylen ≠ 16 → s.keylen ≠ 24 → s.keylen ≠ 32 →
    ∃ t, exec .loadkey s = .next t ∧
      t = { s with
        keystate := ⟨false, 0, 0⟩
        rk := Vector.replicate 15 zeroBlock
        irk := Vector.replicate 15 zeroBlock
        err := .invalidKeySize } ∧
      ∀ i : Instr, consumesKey i = true → exec i t = .next { t with err := .noKey }

/-- R92: CLEARKEY destroys the instance and leaves DATA, KEY and KEYLEN; with no instance it changes
nothing but ERR. -/
def Obligations.ClearkeyDestroysTheInstance : Prop :=
  decode 0x00000002 = .ok .clearkey ∧
  (∀ s : State, exec .clearkey s = .next
    { s with
      keystate := ⟨false, 0, 0⟩
      rk := Vector.replicate 15 zeroBlock
      irk := Vector.replicate 15 zeroBlock
      err := .ok }) ∧
  IllegalForms 0x00000002 0xFFFFFFFF ∧
  (∀ s : State, s.instanceInv → s.keystate.kv = false → exec .clearkey s = .next { s with err := .ok })

/-! ### The commands: transforms (41_cipher_core.md, section 2) -/

/-- R77. -/
def Obligations.SubbytesAppliesTheSbox : Prop :=
  decode 0x00000010 = .ok .subbytes ∧
  (∀ s : State, exec .subbytes s = .next { s with data := subBytes s.data, err := .ok }) ∧
  IllegalForms 0x00000010 0xFFFFFFFF ∧
  (∀ s : State, s.data = zeroBlock → ∃ t, exec .subbytes s = .next t ∧ ∀ i : Fin 16, t.data.byte i = 0x63) ∧
  (∀ s : State, ∃ t, execAll [.subbytes, .subbytes] s = .next t ∧
    ∀ i : Fin 16, t.data.byte i = sbox (sbox (s.data.byte i))) ∧
  okData (exec .subbytes (stagedExample 0x00112233445566778899aabbccddeeff)) =
    some (Block.ofHex 0x638293c31bfc33f5c4eeacea4bc12816)

/-- R78. -/
def Obligations.InvsubbytesAppliesTheInverseSbox : Prop :=
  decode 0x00000011 = .ok .invsubbytes ∧
  (∀ s : State, exec .invsubbytes s = .next { s with data := invSubBytes s.data, err := .ok }) ∧
  IllegalForms 0x00000011 0xFFFFFFFF ∧
  (∀ s : State, execAll [.subbytes, .invsubbytes] s = .next { s with err := .ok }) ∧
  (∀ s : State, s.data = zeroBlock → ∃ t, exec .invsubbytes s = .next t ∧ ∀ i : Fin 16, t.data.byte i = 0x52) ∧
  okData (exec .invsubbytes (stagedExample 0x00112233445566778899aabbccddeeff)) =
    some (Block.ofHex 0x52e3946686edd30297f962fe27c9997d)

/-- R79. With its corner cases and example; that four SHIFTROWS leave S unchanged is the spec's own
derivation. -/
def Obligations.ShiftrowsRotatesRowsLeft : Prop :=
  decode 0x00000012 = .ok .shiftrows ∧
  (∀ s : State, exec .shiftrows s = .next { s with data := shiftRows s.data, err := .ok }) ∧
  IllegalForms 0x00000012 0xFFFFFFFF ∧
  (∀ (s : Block) (c : Fin 4), (shiftRows s).at 0 c = s.at 0 c) ∧
  (∀ s : State, execAll [.shiftrows, .shiftrows, .shiftrows, .shiftrows] s = .next { s with err := .ok }) ∧
  (∀ s : State, (∀ r c : Fin 4, s.data.at r c = s.data.at r 0) → exec .shiftrows s = .next { s with err := .ok }) ∧
  okData (exec .shiftrows (stagedExample 0x000102030405060708090a0b0c0d0e0f)) =
    some (Block.ofHex 0x00050a0f04090e03080d02070c01060b)

/-- R80. With its example; that it equals three SHIFTROWS is the spec's own derivation. -/
def Obligations.InvshiftrowsRotatesRowsRight : Prop :=
  decode 0x00000013 = .ok .invshiftrows ∧
  (∀ s : State, exec .invshiftrows s = .next { s with data := invShiftRows s.data, err := .ok }) ∧
  IllegalForms 0x00000013 0xFFFFFFFF ∧
  (∀ s : State, exec .invshiftrows s = execAll [.shiftrows, .shiftrows, .shiftrows] s) ∧
  okData (exec .invshiftrows (stagedExample 0x000102030405060708090a0b0c0d0e0f)) =
    some (Block.ofHex 0x000d0a0704010e0b0805020f0c090603)

/-- R81: with its corner cases: a zero column, a column of equal bytes, independent columns. That a column
of equal bytes stays is the spec's own derivation. -/
def Obligations.MixcolumnsMixesEveryColumn : Prop :=
  decode 0x00000014 = .ok .mixcolumns ∧
  (∀ s : State, exec .mixcolumns s = .next { s with data := mixColumns s.data, err := .ok }) ∧
  IllegalForms 0x00000014 0xFFFFFFFF ∧
  (∀ (s : Block) (c : Fin 4) (a : Byte), s.col c = ⟨a, a, a, a⟩ → (mixColumns s).col c = ⟨a, a, a, a⟩) ∧
  (∀ (s : Block) (c : Fin 4), s.col c = ⟨0, 0, 0, 0⟩ → (mixColumns s).col c = ⟨0, 0, 0, 0⟩) ∧
  (∀ (s s' : Block) (c : Fin 4), s.col c = s'.col c → (mixColumns s).col c = (mixColumns s').col c) ∧
  okData (exec .mixcolumns (stagedExample 0xdb135345f20a225c01010101c6c6c6c6)) =
    some (Block.ofHex 0x8e4da1bc9fdc589d01010101c6c6c6c6)

/-- R82. With its corner cases; its example is the spec's own derivation. -/
def Obligations.InvmixcolumnsUndoesMixcolumns : Prop :=
  decode 0x00000015 = .ok .invmixcolumns ∧
  (∀ s : State, exec .invmixcolumns s = .next { s with data := invMixColumns s.data, err := .ok }) ∧
  IllegalForms 0x00000015 0xFFFFFFFF ∧
  (∀ (s : Block) (c : Fin 4) (a : Byte), s.col c = ⟨a, a, a, a⟩ → (invMixColumns s).col c = ⟨a, a, a, a⟩) ∧
  (∀ s : State, execAll [.mixcolumns, .invmixcolumns] s = .next { s with err := .ok }) ∧
  okData (exec .invmixcolumns (stagedExample 0x8e4da1bc9fdc589d01010101c6c6c6c6)) =
    some (Block.ofHex 0xdb135345f20a225c01010101c6c6c6c6)

/-- R83: every index 0..NR is accepted, NO_KEY comes before BAD_INDEX, 15 is always BAD_INDEX. -/
def Obligations.AddrkXorsTheForwardRoundKey : Prop :=
  KeyedCommandRule (fun r => 0x00000016 ||| (BitVec.ofNat 32 r <<< 8)) .addrk addRoundKey State.rk ∧
  IllegalForms 0x00000016 0xFFFFF0FF ∧
  (∀ s : State, s.keystate.legal → s.keystate.kv = true → exec (.addrk 15) s = .next { s with err := .badIndex }) ∧
  (∀ (r : Nat) (s : State), s.keystate.kv = true → r ≤ s.keystate.nr.toNat →
    execAll [.addrk r, .addrk r] s = .next { s with err := .ok }) ∧
  okData (execAll [.loadkey, .addrk 0] (stagedExample 0x3243f6a8885a308d313198a2e0370734)) =
    some (Block.ofHex 0x193de3bea0f4e22b9ac68d2ae9f84808)

/-- R84: with an instance of any key, IRK[0] = RK[NR], IRK[NR] = RK[0], and the entries between are
InvMixColumns of RK[NR-r]. -/
def Obligations.AddirkXorsTheInverseRoundKey : Prop :=
  KeyedCommandRule (fun r => 0x00000017 ||| (BitVec.ofNat 32 r <<< 8)) .addirk addRoundKey State.irk ∧
  IllegalForms 0x00000017 0xFFFFF0FF ∧
  (∀ s : State, s.instanceInv → s.keystate.kv = true →
    exec (.addirk 0) s = exec (.addrk s.keystate.nr.toNat) s ∧
    exec (.addirk s.keystate.nr.toNat) s = exec (.addrk 0) s ∧
    ∀ r, 0 < r → r < s.keystate.nr.toNat →
      invRoundKey s r = invMixColumns (roundKey s (s.keystate.nr.toNat - r))) ∧
  okData (execAll [.loadkey, .addirk 0] (stagedExample 0x3925841d02dc09fbdc118597196a0b32)) =
    some (Block.ofHex 0xe9317db5cb322c723d2e895faf090794)

/-! ### The commands: rounds (43_cipher_driver.md) -/

/-- R102: with either value of F. -/
def Obligations.RoundAppliesOneFullRound : Prop :=
  (∀ f : Bool,
    KeyedCommandRule (fun r => 0x00000020 ||| (BitVec.ofNat 32 r <<< 8) ||| (BitVec.ofNat 32 f.toNat <<< 16))
      (fun r => .round r f) fullRound State.rk) ∧
  IllegalForms 0x00000020 0xFFFEF0FF ∧
  (∀ f : Bool, okData (execAll [.loadkey, .round 1 f] (stagedExample 0x193de3bea0f4e22b9ac68d2ae9f84808)) =
    some (Block.ofHex 0xa49c7ff2689f352b6b5bea43026a5049))

/-- R103. -/
def Obligations.FinalroundOmitsMixColumns : Prop :=
  KeyedCommandRule (fun r => 0x00000021 ||| (BitVec.ofNat 32 r <<< 8)) .finalround finalRound State.rk ∧
  IllegalForms 0x00000021 0xFFFFF0FF ∧
  okData (execAll [.loadkey, .finalround 10] (stagedExample 0xeb40f21e592e38848ba113e71bc342d2)) =
    some (Block.ofHex 0x3925841d02dc09fbdc118597196a0b32)

/-- R104. -/
def Obligations.InvroundAppliesOneInverseRound : Prop :=
  KeyedCommandRule (fun r => 0x00000022 ||| (BitVec.ofNat 32 r <<< 8)) .invround invRound State.irk ∧
  IllegalForms 0x00000022 0xFFFFF0FF ∧
  okData (execAll [.loadkey, .invround 1] (stagedExample 0xe9317db5cb322c723d2e895faf090794)) =
    some (Block.ofHex 0x876e46a6f24ce78c4d904ad897ecc395)

/-- R105: at r = NR the round key of an instance's inverse final round is RK[0]. -/
def Obligations.InvfinalroundOmitsInvMixColumns : Prop :=
  KeyedCommandRule (fun r => 0x00000023 ||| (BitVec.ofNat 32 r <<< 8)) .invfinalround invFinalRound State.irk ∧
  IllegalForms 0x00000023 0xFFFFF0FF ∧
  (∀ s : State, s.instanceInv → s.keystate.kv = true → invRoundKey s s.keystate.nr.toNat = roundKey s 0) ∧
  okData (execAll [.loadkey, .invfinalround 10] (stagedExample 0xd4bf5d30e0b452aeb84111f11e2798e5)) =
    some (Block.ofHex 0x3243f6a8885a308d313198a2e0370734)

/-! ### The commands: the cipher driver and key recovery -/

/-- R106: with either value of F; equal to the sequence ADDRK 0, ROUND 1, ..., FINALROUND NR; the source's
known-answer vector. That sequence is the spec's own derivation in R106. -/
def Obligations.EncryptRunsAllRounds : Prop :=
  (decode 0x00000030 = .ok (.encrypt false) ∧ decode 0x00010030 = .ok (.encrypt true)) ∧
  (∀ (f : Bool) (s : State), s.keystate.kv = true →
    exec (.encrypt f) s =
      .next { s with data := cipherBy false s.data (roundKey s) s.keystate.nr.toNat, err := .ok }) ∧
  (∀ (f : Bool) (s : State), s.keystate.kv = false → exec (.encrypt f) s = .next { s with err := .noKey }) ∧
  IllegalForms 0x00000030 0xFFFEFFFF ∧
  (∀ (f : Bool) (s : State), s.keystate.kv = true → 1 ≤ s.keystate.nr.toNat →
    exec (.encrypt f) s =
      execAll (.addrk 0 :: ((List.range' 1 (s.keystate.nr.toNat - 1)).map (fun r => Instr.round r f) ++
        [.finalround s.keystate.nr.toNat])) s) ∧
  (∀ f : Bool, okData (execAll [.loadkey, .encrypt f] (stagedExample 0x3243f6a8885a308d313198a2e0370734)) =
    some (Block.ofHex 0x3925841d02dc09fbdc118597196a0b32))

/-- R107: ENCRYPT then DECRYPT restores S for every key size; equal to the sequence ADDIRK 0,
INVROUND 1, ..., INVFINALROUND NR. -/
def Obligations.DecryptRunsTheEquivalentInverseCipher : Prop :=
  decode 0x00000031 = .ok .decrypt ∧
  (∀ s : State, s.keystate.kv = true →
    exec .decrypt s = .next { s with data := eqInvCipher s.data (invRoundKey s) s.keystate.nr.toNat, err := .ok }) ∧
  (∀ s : State, s.keystate.kv = false → exec .decrypt s = .next { s with err := .noKey }) ∧
  IllegalForms 0x00000031 0xFFFFFFFF ∧
  (∀ (f : Bool) (s : State), s.instanceInv → s.keystate.kv = true →
    execAll [.encrypt f, .decrypt] s = .next { s with err := .ok }) ∧
  (∀ s : State, s.keystate.kv = true → 1 ≤ s.keystate.nr.toNat →
    exec .decrypt s =
      execAll (.addirk 0 :: ((List.range' 1 (s.keystate.nr.toNat - 1)).map Instr.invround ++
        [.invfinalround s.keystate.nr.toNat])) s) ∧
  okData (execAll [.loadkey, .decrypt] (stagedExample 0x3925841d02dc09fbdc118597196a0b32)) =
    some (Block.ofHex 0x3243f6a8885a308d313198a2e0370734)

/-- R108: `n` rounds of a loaded AES-128 key; NO_KEY, then KEY_SIZE_MISMATCH, then BAD_INDEX. -/
def Obligations.EncryptnRunsTheReducedCipher : Prop :=
  (∀ (n : Nat) (f : Bool), n ≤ 15 →
    decode (0x00000032 ||| (BitVec.ofNat 32 n <<< 8) ||| (BitVec.ofNat 32 f.toNat <<< 16)) = .ok (.encryptn n f)) ∧
  (∀ (n : Nat) (f : Bool) (s : State), s.keystate.kv = true → s.keystate.nk = 4 → 1 ≤ n → n ≤ s.keystate.nr.toNat →
    exec (.encryptn n f) s = .next { s with data := cipherBy false s.data (roundKey s) n, err := .ok }) ∧
  (∀ (n : Nat) (f : Bool) (s : State), s.keystate.kv = false → exec (.encryptn n f) s = .next { s with err := .noKey }) ∧
  (∀ (n : Nat) (f : Bool) (s : State), s.keystate.kv = true → s.keystate.nk ≠ 4 →
    exec (.encryptn n f) s = .next { s with err := .keySizeMismatch }) ∧
  (∀ (n : Nat) (f : Bool) (s : State), s.keystate.kv = true → s.keystate.nk = 4 →
    n = 0 ∨ n > s.keystate.nr.toNat → exec (.encryptn n f) s = .next { s with err := .badIndex }) ∧
  IllegalForms 0x00000032 0xFFFEF0FF ∧
  (∀ (f : Bool) (s : State), s.keystate = ⟨true, 4, 10⟩ → exec (.encryptn 10 f) s = exec (.encrypt f) s) ∧
  (∀ (s : Block) (keys : Nat → Block), cipherBy false s keys 1 = finalRound (addRoundKey s (keys 0)) (keys 1)) ∧
  (∀ f : Bool, okData (execAll [.loadkey, .encryptn 4 f] (stagedExample 0x3243f6a8885a308d313198a2e0370734)) =
    some (Block.ofHex 0xbde06dd52d43315755be0aec2d5bf307))

/-- R94: PREVRK needs no instance; BAD_INDEX above 9; PREVRK 9, ..., PREVRK 0 takes round key 10 of an
AES-128 key back to round key 0. The formulas of the four words are the spec's own derivation in R93, from
R86 with N = 4. -/
def Obligations.PrevrkStepsBackOneRoundKey : Prop :=
  (∀ i, i ≤ 15 → decode (0x00000040 ||| (BitVec.ofNat 32 i <<< 8)) = .ok (.prevrk i)) ∧
  (∀ (i : Nat) (s : State), i ≤ 9 → ∃ b : Block,
    exec (.prevrk i) s = .next { s with data := b, err := .ok } ∧
    b.word 3 = s.data.word 3 ^^^ s.data.word 2 ∧ b.word 2 = s.data.word 2 ^^^ s.data.word 1 ∧
    b.word 1 = s.data.word 1 ^^^ s.data.word 0 ∧
    b.word 0 = s.data.word 0 ^^^ subWord (rotWord (b.word 3)) ^^^ ((rcon (i + 1)).setWidth 32 <<< 24)) ∧
  (∀ (i : Nat) (s : State), i > 9 → exec (.prevrk i) s = .next { s with err := .badIndex }) ∧
  IllegalForms 0x00000040 0xFFFFF0FF ∧
  (∀ (key : List Byte) (s : State), key.length = 16 → s.data = (keyExpansion .aes128 key).getD 10 zeroBlock →
    execAll ([9, 8, 7, 6, 5, 4, 3, 2, 1, 0].map Instr.prevrk) s =
      .next { s with data := (keyExpansion .aes128 key).getD 0 zeroBlock, err := .ok }) ∧
  okData (exec (.prevrk 9) (stagedExample 0xd014f9a8c9ee2589e13f0cc8b6630ca6)) =
    some (Block.ofHex 0xac7766f319fadc2128d12941575c006e)

/-! ### The cipher instance as a whole-machine invariant (10_state.md) -/

/-- R26: KEYSTATE's legal values are exactly the four, each reached and no other; only LOADKEY, CLEARKEY
and reset write it; the host reads it through STATUS and cannot write it. That these are the reachable
values is the spec's own derivation in R26. That a run may make any host accesses is the model's choice
(log 1). -/
def Obligations.KeystateHoldsOnlyItsLegalValues : Prop :=
  (∀ s : State, Reachable s → s.keystate.legal) ∧
  (∀ k : KeyState, k.legal → ∃ s, Reachable s ∧ s.keystate = k) ∧
  (∀ (i : Instr) (s t : State), exec i s = .next t → i ≠ .loadkey → i ≠ .clearkey → t.keystate = s.keystate) ∧
  (∀ (n off : Nat) (v : Word) (s t : State), memWrite n off v s = .next t → off ≠ 0x000 → t.keystate = s.keystate) ∧
  (∀ s : State, (statusWord s).extractLsb' 0 1 = BitVec.ofBool s.keystate.kv ∧
    (statusWord s).extractLsb' 4 4 = s.keystate.nk ∧ (statusWord s).extractLsb' 8 4 = s.keystate.nr) ∧
  State.reset.keystate = ⟨false, 0, 0⟩

/-- The invariant of R27 holds after every step from every state in which it holds: with no instance
RK and IRK are zero; with one they are the schedules of some key and zero above NR. -/
def Obligations.StepKeepsTheInstanceInvariant : Prop :=
  ∀ s t : State, s.instanceInv → step s = .next t → t.instanceInv

/-- The invariant of R27 holds at reset. -/
def Obligations.ResetMeetsTheInstanceInvariant : Prop := State.reset.instanceInv

/-- A command writes only what R37's table gives it: no command writes KEY, KEYLEN or what the host has
still to do and has read; only LOADKEY and CLEARKEY write KEYSTATE, RK and IRK; only the
state-transforming commands and PREVRK write DATA. Every command completes. R37's table is the spec's own
derivation; the host's two lists are the model's own (logs 1 and 2). -/
def Obligations.CommandsWriteOnlyTheirState : Prop :=
  (∀ (i : Instr) (s : State), ∃ t, exec i s = .next t) ∧
  ∀ (i : Instr) (s t : State), exec i s = .next t →
    t.key = s.key ∧ t.keylen = s.keylen ∧ t.pending = s.pending ∧ t.reads = s.reads ∧
    (writesInstance i = false → t.keystate = s.keystate ∧ t.rk = s.rk ∧ t.irk = s.irk) ∧
    (writesData i = false → t.data = s.data)

/-- In every state a run reaches with a key loaded, of any size, decryption undoes encryption on every
block and encryption undoes decryption, on either datapath. The round trip is the spec's own derivation in
R98. That a run may make any host accesses is the model's choice (log 1). -/
def Obligations.EncryptAndDecryptAreInverse : Prop :=
  ∀ (s : State) (f : Bool), Reachable s → s.keystate.kv = true →
    execAll [.encrypt f, .decrypt] s = .next { s with err := .ok } ∧
    execAll [.decrypt, .encrypt f] s = .next { s with err := .ok }

/-! ### Status and errors (10_state.md, 60_exceptions.md) -/

/-- R29: STATUS is assembled from KEYSTATE and ERR, its other bits read 0, and a write is ignored. The
value after a 16-byte LOADKEY is the spec's own derivation in R29. -/
def Obligations.StatusIsAssembledFromKeystateAndErr : Prop :=
  (∀ s : State,
    (statusWord s).extractLsb' 0 1 = BitVec.ofBool s.keystate.kv ∧ (statusWord s).extractLsb' 1 3 = 0 ∧
    (statusWord s).extractLsb' 4 4 = s.keystate.nk ∧ (statusWord s).extractLsb' 8 4 = s.keystate.nr ∧
    (statusWord s).extractLsb' 12 4 = s.err.code ∧ (statusWord s).extractLsb' 16 16 = 0) ∧
  (∀ s : State, memRead 4 0x004 s = .ok (statusWord s)) ∧
  (∀ (v : Word) (s : State), memWrite 4 0x004 v s = .next s) ∧
  statusWord State.reset = 0x00000000 ∧
  (∀ s : State, s.keylen = 16 → ∃ t, exec .loadkey s = .next t ∧ statusWord t = 0x00000A41)

/-- R110, R111: the codes, none of them reserved, and that a command reports exactly the first error
it meets: ILLEGAL_COMMAND before all others, then those of the command in their order. -/
def Obligations.CommandReportsItsFirstError : Prop :=
  [ErrCode.ok, .illegalCommand, .invalidKeySize, .noKey, .badIndex, .keySizeMismatch].map ErrCode.code =
    [0, 1, 2, 3, 4, 5] ∧
  (∀ e : ErrCode, e.code.toNat ≤ 5) ∧
  (∀ (w : Word) (s : State), ∃ t, execute w s = .next t ∧
    t.err = (match decode w with | .error _ => ErrCode.illegalCommand | .ok i => firstError i s))

/-- R112: a command error leaves every register but ERR as it was, INVALID_KEY_SIZE alone also
destroying the instance, and the write to CMD completes normally. -/
def Obligations.CommandErrorChangesNothingButErr : Prop :=
  (∀ (w : Word) (s : State), ∃ t, memWrite 4 0x000 w s = .next t) ∧
  ∀ (w : Word) (s t : State), memWrite 4 0x000 w s = .next t → t.err ≠ .ok →
    (t.err ≠ .invalidKeySize ∧ t = { s with err := t.err }) ∨
    (t.err = .invalidKeySize ∧
      t = { s with
        keystate := ⟨false, 0, 0⟩
        rk := Vector.replicate 15 zeroBlock
        irk := Vector.replicate 15 zeroBlock
        err := .invalidKeySize })

/-! ### Host accesses (20_memory.md) -/

/-- R42: what every offset reads as. -/
def Obligations.ReadsFollowTheRegisterMap : Prop :=
  (∀ s : State, memRead 4 0x000 s = .ok 0x00000000 ∧ memRead 4 0x004 s = .ok (statusWord s) ∧
    memRead 4 0x008 s = .ok s.keylen) ∧
  (∀ (s : State) (j : Fin 4), memRead 4 (0x010 + 4 * j.val) s = .ok (s.data.word j)) ∧
  (∀ (s : State) (j : Fin 8), memRead 4 (0x020 + 4 * j.val) s = .ok s.key[j]) ∧
  (∀ (s : State) (r : Fin 15) (j : Fin 4),
    memRead 4 (0x100 + 16 * r.val + 4 * j.val) s = .ok (s.rk[r].word j) ∧
    memRead 4 (0x200 + 16 * r.val + 4 * j.val) s = .ok (s.irk[r].word j)) ∧
  (∀ (s : State) (n off : Nat), BadAccess n off → memRead n off s = .error (.busError off))

/-- R43: what a write to every offset does: CMD launches the command; a DATA write replaces only the
four bytes of its word; a write to a read-only register is ignored. -/
def Obligations.WritesFollowTheRegisterMap : Prop :=
  (∀ (s : State) (v : Word), memWrite 4 0x000 v s = execute v s ∧ memWrite 4 0x004 v s = .next s ∧
    memWrite 4 0x008 v s = .next { s with keylen := v }) ∧
  (∀ (s : State) (j : Fin 4) (v : Word), ∃ b : Block,
    memWrite 4 (0x010 + 4 * j.val) v s = .next { s with data := b } ∧
    (∀ k : Fin 4, b.byte ⟨4 * j.val + k.val, by omega⟩ = v.extractLsb' (24 - 8 * k.val) 8) ∧
    (∀ i : Fin 16, i.val / 4 ≠ j.val → b.byte i = s.data.byte i)) ∧
  (∀ (s : State) (j : Fin 8) (v : Word), ∃ key : Vector Word 8,
    memWrite 4 (0x020 + 4 * j.val) v s = .next { s with key := key } ∧
    ∀ i : Fin 8, key[i] = if i = j then v else s.key[i]) ∧
  (∀ (s : State) (r : Fin 15) (j : Fin 4) (v : Word),
    memWrite 4 (0x100 + 16 * r.val + 4 * j.val) v s = .next s ∧
    memWrite 4 (0x200 + 16 * r.val + 4 * j.val) v s = .next s) ∧
  (∀ (s : State) (n off : Nat) (v : Word), BadAccess n off → memWrite n off v s = .fault (.busError off))

/-- R46: a read changes nothing but what the host has read; a write to DATA, KEY or KEYLEN made twice is
the write made once; a command written twice is performed twice. That what the host has read is a list in
State is the model's choice (log 2). -/
def Obligations.ReadsHaveNoSideEffect : Prop :=
  (∀ (s : State) (n off : Nat) (v : Word), memRead n off s = .ok v →
    performEvent (.read n off) s = .next { s with reads := s.reads ++ [v] } ∧
    performAll [.read n off, .read n off] s = .next { s with reads := s.reads ++ [v, v] }) ∧
  (∀ (s : State) (off : Nat) (v : Word), off = 0x008 ∨ (0x010 ≤ off ∧ off < 0x040 ∧ off % 4 = 0) →
    ∃ t, performEvent (.write 4 off v) s = .next t ∧ performEvent (.write 4 off v) t = .next t ∧
      memRead 4 off t = .ok v) ∧
  (∀ (s : State) (w : Word), ∃ t u, performEvent (.write 4 0x000 w) s = .next t ∧ execute w t = .next u ∧
    performAll [.write 4 0x000 w, .write 4 0x000 w] s = .next u)

/-- R40, R41, R44, R115: a step whose oldest access has the wrong width, a misaligned or an unmapped
offset is a bus error at that offset; any other access completes; at the ports the error response
leaves the core as it was. -/
def Obligations.BadAccessesAreBusErrors : Prop :=
  (∀ (s : State) (rest : List HostEvent) (n off : Nat) (v : Word), BadAccess n off →
    (s.pending = .read n off :: rest ∨ s.pending = .write n off v :: rest) → step s = .fault (.busError off)) ∧
  (∀ (s : State) (rest : List HostEvent) (n off : Nat) (v : Word), ¬ BadAccess n off →
    (s.pending = .read n off :: rest ∨ s.pending = .write n off v :: rest) → ∃ t, step s = .next t) ∧
  (∀ (s : State) (p : PortIn), p.rst = false → p.req = true → BadAccess (bytesOfSize p.size) p.addr.toNat →
    clockEdge p ⟨s, none⟩ = .ok (⟨s, none⟩, .busError))

/-- A run whose accesses raise no bus error completes: after as many steps as there are accesses, none is
left and there is one more word read for each read, after those read before. The lists of accesses and of
words read are the model's choice (logs 1 and 2). A reset may stand among the accesses (R135); that it
leaves both lists as they are is the model's reading (log 10). -/
def Obligations.SafeRunsComplete : Prop :=
  ∀ s : State, s.safe →
    ∃ t more, Host.Core.run Sys2Proof.core s.pending.length s = .next t ∧ t.pending = [] ∧
      t.reads = s.reads ++ more ∧
      more.length = (s.pending.filter (fun e => match e with | .read _ _ => true | _ => false)).length

/-! ### Reset and the ports (10_state.md, 70_reset_and_hazards.md) -/

/-- R36: the reset values, and that every register of the aperture then reads 0. -/
def Obligations.ResetLeavesEverythingZero : Prop :=
  (∀ i : Fin 16, State.reset.data.byte i = 0x00) ∧ (∀ j : Fin 8, State.reset.key[j] = 0x00000000) ∧
  State.reset.keylen = 0x00000000 ∧ State.reset.keystate = ⟨false, 0, 0⟩ ∧
  (∀ (r : Fin 15) (i : Fin 16), State.reset.rk[r].byte i = 0x00 ∧ State.reset.irk[r].byte i = 0x00) ∧
  State.reset.err.code = 0 ∧ statusWord State.reset = 0x00000000 ∧
  (∀ n off, ¬ BadAccess n off → memRead n off State.reset = .ok 0x00000000)

/-- R126: a cycle with `rst = 1`, in any state of the core and its bus, leaves every piece of state at its
reset value; a command in progress is abandoned and no access completes; after it the core accepts
accesses at once. That the host's two lists stay is the model's reading (log 10). -/
def Obligations.ResetAbandonsTheCommandInProgress : Prop :=
  ∀ (p : PortIn) (b : PortState), p.rst = true →
    ∃ b' out, clockEdge p b = .ok (b', out) ∧ (out = .waiting ∨ out = .idle) ∧ b'.held = none ∧
      b'.core = { State.reset with pending := b.core.pending, reads := b.core.reads } ∧
      ∀ q : PortIn, q.rst = false → q.req = true → q.we = false → ¬ BadAccess (bytesOfSize q.size) q.addr.toNat →
        ∃ b'', clockEdge q b' = .ok (b'', .completed (some 0x00000000))

/-- A word write of a command to CMD, held stable at the ports, completes `LATENCY(cmd)` cycles after it
is presented with exactly the transaction's result, waits in every cycle before, and no cycle before it
changes the core. Which cycles LATENCY counts, and that it holds illegal words too, is the model's reading
(log 12). -/
def Obligations.CommandIsHeldForItsLatency : Prop :=
  (∀ w : Word, 0 < Config.latency w) ∧
  (∀ (w : Word) (s t : State), execute w s = .next t →
    holdPorts (commandPorts w) (Config.latency w + 1) ⟨s, none⟩ =
      .ok (⟨t, none⟩, List.replicate (Config.latency w) .waiting ++ [.completed none])) ∧
  (∀ (w : Word) (s : State) (k : Nat), 1 ≤ k → k ≤ Config.latency w →
    holdPorts (commandPorts w) k ⟨s, none⟩ =
      .ok (⟨s, some ⟨w, Config.latency w - k⟩⟩, List.replicate k .waiting))
end

