-- ==== Sys2Proof/Laws/Block.lean ====
section
/-! SUPPORT. The views of a block against each other: bytes, rows and columns, words. -/

namespace Sys2Proof

@[simp] theorem Column.get_zero (c : Column) : c.get 0 = c.r0 := rfl
@[simp] theorem Column.get_one (c : Column) : c.get 1 = c.r1 := rfl
@[simp] theorem Column.get_two (c : Column) : c.get 2 = c.r2 := rfl
@[simp] theorem Column.get_three (c : Column) : c.get 3 = c.r3 := rfl

@[simp] theorem Block.col_zero (s : Block) : s.col 0 = s.c0 := rfl
@[simp] theorem Block.col_one (s : Block) : s.col 1 = s.c1 := rfl
@[simp] theorem Block.col_two (s : Block) : s.col 2 = s.c2 := rfl
@[simp] theorem Block.col_three (s : Block) : s.col 3 = s.c3 := rfl

@[simp] theorem Block.col_ofColumns (f : Fin 4 → Column) (c : Fin 4) : (Block.ofColumns f).col c = f c := by
  fin_cases c <;> rfl

@[simp] theorem Block.at_ofRows (f : Fin 4 → Fin 4 → Byte) (r c : Fin 4) : (Block.ofRows f).at r c = f r c := by
  fin_cases r <;> fin_cases c <;> rfl

@[simp] theorem Block.at_map (f : Byte → Byte) (s : Block) (r c : Fin 4) : (s.map f).at r c = f (s.at r c) := by
  simp [Block.map]

@[simp] theorem Block.col_mapColumns (f : Column → Column) (s : Block) (c : Fin 4) :
    (s.mapColumns f).col c = f (s.col c) := by
  simp [Block.mapColumns]

@[simp] theorem Block.ofRows_at (s : Block) : Block.ofRows (fun r c => s.at r c) = s := rfl

@[simp] theorem Block.ofColumns_col (s : Block) : Block.ofColumns s.col = s := rfl

/-- Two blocks with the same bytes are the same block. -/
theorem Block.ext_at {s t : Block} (h : ∀ r c, s.at r c = t.at r c) : s = t := by
  rw [← Block.ofRows_at s, ← Block.ofRows_at t]
  simp only [h]

theorem Block.ext_col {s t : Block} (h : ∀ c, s.col c = t.col c) : s = t := by
  rw [← Block.ofColumns_col s, ← Block.ofColumns_col t, funext h]

/-- R15: splitting a packed column gives the column back. -/
@[simp] theorem Column.ofWord_toWord (c : Column) : Column.ofWord c.toWord = c := by
  obtain ⟨a, b, d, e⟩ := c
  simp only [Column.ofWord, Column.toWord, Column.mk.injEq]
  refine ⟨?_, ?_, ?_, ?_⟩ <;>
  · ext i hi
    simp only [BitVec.getElem_extractLsb', BitVec.getLsbD_or, BitVec.getLsbD_shiftLeft, BitVec.getLsbD_setWidth]
    interval_cases i <;> simp

/-- R15: packing a split word gives the word back. -/
@[simp] theorem Column.toWord_ofWord (w : Word) : (Column.ofWord w).toWord = w := by
  apply BitVec.eq_of_getLsbD_eq
  intro i hi
  simp only [Column.ofWord, Column.toWord, BitVec.getLsbD_or, BitVec.getLsbD_shiftLeft, BitVec.getLsbD_setWidth,
    BitVec.getLsbD_extractLsb']
  generalize w.getLsbD = f
  rcases (by omega : i < 8 ∨ (8 ≤ i ∧ i < 16) ∨ (16 ≤ i ∧ i < 24) ∨ 24 ≤ i) with h | h | h | h
  · simp [h, hi, show i < 16 by omega, show i < 24 by omega]
  · simp [h, hi, show ¬ i < 8 by omega, show i < 24 by omega, show i - 8 < 8 by omega, show 8 + (i - 8) = i by omega]
    omega
  · simp [h, hi, show ¬ i < 8 by omega, show ¬ i < 16 by omega, show i - 16 < 8 by omega,
      show 16 + (i - 16) = i by omega, show ¬ i - 8 < 8 by omega]
    omega
  · simp [hi, show ¬ i < 8 by omega, show ¬ i < 16 by omega, show ¬ i < 24 by omega, show i - 24 < 8 by omega,
      show 24 + (i - 24) = i by omega, show ¬ i - 8 < 8 by omega, show ¬ i - 16 < 8 by omega]
    omega

theorem Column.toWord_xor (a b : Column) :
    a.toWord ^^^ b.toWord = Column.toWord ⟨a.r0 ^^^ b.r0, a.r1 ^^^ b.r1, a.r2 ^^^ b.r2, a.r3 ^^^ b.r3⟩ := by
  ext i hi
  simp only [Column.toWord, BitVec.getElem_xor, BitVec.getElem_or, BitVec.getElem_shiftLeft, BitVec.getElem_setWidth,
    BitVec.getLsbD_xor]
  interval_cases i <;> simp

@[simp] theorem Block.col_ofWords (f : Fin 4 → Word) (j : Fin 4) : (Block.ofWords f).col j = Column.ofWord (f j) := by
  simp [Block.ofWords]

@[simp] theorem Block.word_ofWords (f : Fin 4 → Word) (j : Fin 4) : (Block.ofWords f).word j = f j := by
  simp [Block.word]

theorem Block.col_setCol (s : Block) (j k : Fin 4) (c : Column) :
    (s.setCol j c).col k = if k = j then c else s.col k := by
  fin_cases j <;> fin_cases k <;> rfl

end Sys2Proof
end

