-- ==== Sys2Proof/Laws/State.lean ====
section
/-! SUPPORT. What each named update does to each field of the state. -/

namespace Sys2Proof.Machine

@[simp] theorem destroyInstance_data (s : State) : (destroyInstance s).data = s.data := rfl
@[simp] theorem destroyInstance_key (s : State) : (destroyInstance s).key = s.key := rfl
@[simp] theorem destroyInstance_keylen (s : State) : (destroyInstance s).keylen = s.keylen := rfl
@[simp] theorem destroyInstance_keystate (s : State) : (destroyInstance s).keystate = KeyState.empty := rfl
@[simp] theorem destroyInstance_rk (s : State) : (destroyInstance s).rk = Vector.replicate 15 zeroBlock := rfl
@[simp] theorem destroyInstance_irk (s : State) : (destroyInstance s).irk = Vector.replicate 15 zeroBlock := rfl
@[simp] theorem destroyInstance_err (s : State) : (destroyInstance s).err = s.err := rfl
@[simp] theorem destroyInstance_pending (s : State) : (destroyInstance s).pending = s.pending := rfl
@[simp] theorem destroyInstance_reads (s : State) : (destroyInstance s).reads = s.reads := rfl

@[simp] theorem constructInstance_data (ks : KeySize) (k : List Byte) (s : State) : (constructInstance ks k s).data = s.data := rfl
@[simp] theorem constructInstance_key (ks : KeySize) (k : List Byte) (s : State) : (constructInstance ks k s).key = s.key := rfl
@[simp] theorem constructInstance_keylen (ks : KeySize) (k : List Byte) (s : State) : (constructInstance ks k s).keylen = s.keylen := rfl
@[simp] theorem constructInstance_keystate (ks : KeySize) (k : List Byte) (s : State) : (constructInstance ks k s).keystate = KeyState.loaded ks := rfl
@[simp] theorem constructInstance_rk (ks : KeySize) (k : List Byte) (s : State) : (constructInstance ks k s).rk = roundKeyFile (keyExpansion ks k) := rfl
@[simp] theorem constructInstance_irk (ks : KeySize) (k : List Byte) (s : State) : (constructInstance ks k s).irk = roundKeyFile (inverseSchedule (keyExpansion ks k) ks.rounds) := rfl
@[simp] theorem constructInstance_err (ks : KeySize) (k : List Byte) (s : State) : (constructInstance ks k s).err = s.err := rfl
@[simp] theorem constructInstance_pending (ks : KeySize) (k : List Byte) (s : State) : (constructInstance ks k s).pending = s.pending := rfl
@[simp] theorem constructInstance_reads (ks : KeySize) (k : List Byte) (s : State) : (constructInstance ks k s).reads = s.reads := rfl

@[simp] theorem resetCore_data (s : State) : (resetCore s).data = zeroBlock := rfl
@[simp] theorem resetCore_key (s : State) : (resetCore s).key = Vector.replicate 8 0 := rfl
@[simp] theorem resetCore_keylen (s : State) : (resetCore s).keylen = 0 := rfl
@[simp] theorem resetCore_keystate (s : State) : (resetCore s).keystate = KeyState.empty := rfl
@[simp] theorem resetCore_rk (s : State) : (resetCore s).rk = Vector.replicate 15 zeroBlock := rfl
@[simp] theorem resetCore_irk (s : State) : (resetCore s).irk = Vector.replicate 15 zeroBlock := rfl
@[simp] theorem resetCore_err (s : State) : (resetCore s).err = .ok := rfl
@[simp] theorem resetCore_pending (s : State) : (resetCore s).pending = s.pending := rfl
@[simp] theorem resetCore_reads (s : State) : (resetCore s).reads = s.reads := rfl

@[simp] theorem presentCommand_data (w : Word) (s : State) : (presentCommand w s).data = s.data := rfl
@[simp] theorem presentCommand_key (w : Word) (s : State) : (presentCommand w s).key = s.key := rfl
@[simp] theorem presentCommand_keylen (w : Word) (s : State) : (presentCommand w s).keylen = s.keylen := rfl
@[simp] theorem presentCommand_keystate (w : Word) (s : State) : (presentCommand w s).keystate = s.keystate := rfl
@[simp] theorem presentCommand_rk (w : Word) (s : State) : (presentCommand w s).rk = s.rk := rfl
@[simp] theorem presentCommand_irk (w : Word) (s : State) : (presentCommand w s).irk = s.irk := rfl
@[simp] theorem presentCommand_err (w : Word) (s : State) : (presentCommand w s).err = s.err := rfl
@[simp] theorem presentCommand_pending (w : Word) (s : State) : (presentCommand w s).pending = .write 4 0x000 w :: s.pending := rfl
@[simp] theorem presentCommand_reads (w : Word) (s : State) : (presentCommand w s).reads = s.reads := rfl

@[simp] theorem withFetchWord_eq (s : State) (nbits w : Nat) :
    s.withFetchWord nbits w = presentCommand (tableWord nbits w) s := rfl

/-- Taking a presented command from the queue again gives the state before it was presented. -/
@[simp] theorem presentCommand_taken (w : Word) (s : State) :
    { presentCommand w s with pending := s.pending } = s := rfl

theorem writeReg_keystate (a : RegAddr) (v : Word) (s : State) : (writeReg a v s).keystate = s.keystate := by
  cases a <;> rfl

theorem writeReg_rk (a : RegAddr) (v : Word) (s : State) : (writeReg a v s).rk = s.rk := by cases a <;> rfl

theorem writeReg_irk (a : RegAddr) (v : Word) (s : State) : (writeReg a v s).irk = s.irk := by cases a <;> rfl

theorem writeReg_err (a : RegAddr) (v : Word) (s : State) : (writeReg a v s).err = s.err := by cases a <;> rfl

theorem writeReg_pending (a : RegAddr) (v : Word) (s : State) : (writeReg a v s).pending = s.pending := by
  cases a <;> rfl

theorem writeReg_reads (a : RegAddr) (v : Word) (s : State) : (writeReg a v s).reads = s.reads := by cases a <;> rfl

/-! The operations that end a command, as the state they answer. -/

@[simp] theorem raiseCmdError_eq (c : ErrCode) (s : State) : raiseCmdError c s = .next { s with err := c } := rfl

@[simp] theorem complete_eq (s : State) : complete s = .next { s with err := .ok } := rfl

@[simp] theorem commitData_eq (b : Block) (s : State) : commitData b s = .next { s with data := b, err := .ok } := rfl

end Sys2Proof.Machine
end

