-- ==== Sys2Proof/Laws/Ops.lean ====
section
/-! SUPPORT. Once for each shared operation, everything it can do: later proofs cite these and do not unfold it. -/

namespace Sys2Proof.Machine

variable {s t : State} {go : Result}

/-! ### The checks on operands -/

theorem requireKey_next (h : requireKey s go = .next t) :
    (s.keystate.kv = true ∧ go = .next t) ∨ (s.keystate.kv = false ∧ t = { s with err := .noKey }) := by
  unfold requireKey at h
  split at h
  · exact .inl ⟨‹_›, h⟩
  · simp only [raiseCmdError_eq, Host.Outcome.next.injEq] at h
    exact .inr ⟨Bool.eq_false_of_not_eq_true ‹_›, h.symm⟩

theorem requireKey_of_loaded (h : s.keystate.kv = true) : requireKey s go = go := by simp [requireKey, h]

theorem requireKey_of_empty (h : s.keystate.kv = false) : requireKey s go = .next { s with err := .noKey } := by
  simp [requireKey, h]

theorem requireIndex_next {r : Nat} (h : requireIndex r s go = .next t) :
    (r ≤ roundCount s ∧ go = .next t) ∨ (r > roundCount s ∧ t = { s with err := .badIndex }) := by
  unfold requireIndex at h
  split at h
  · simp only [raiseCmdError_eq, Host.Outcome.next.injEq] at h
    exact .inr ⟨‹_›, h.symm⟩
  · exact .inl ⟨by omega, h⟩

theorem requireIndex_of_le {r : Nat} (h : r ≤ roundCount s) : requireIndex r s go = go := by
  simp [requireIndex, Nat.not_lt.mpr h]

theorem requireIndex_of_gt {r : Nat} (h : r > roundCount s) : requireIndex r s go = .next { s with err := .badIndex } := by
  simp [requireIndex, h]

theorem requireKey128_next (h : requireKey128 s go = .next t) :
    (s.keystate.nk = 4 ∧ go = .next t) ∨ (s.keystate.nk ≠ 4 ∧ t = { s with err := .keySizeMismatch }) := by
  unfold requireKey128 at h
  split at h
  · simp only [raiseCmdError_eq, Host.Outcome.next.injEq] at h
    exact .inr ⟨‹_›, h.symm⟩
  · exact .inl ⟨Decidable.not_not.mp ‹_›, h⟩

theorem requireRoundCount_next {n : Nat} (h : requireRoundCount n s go = .next t) :
    (n ≠ 0 ∧ n ≤ roundCount s ∧ go = .next t) ∨ ((n = 0 ∨ n > roundCount s) ∧ t = { s with err := .badIndex }) := by
  unfold requireRoundCount at h
  split at h
  · simp only [raiseCmdError_eq, Host.Outcome.next.injEq] at h
    exact .inr ⟨‹_›, h.symm⟩
  · exact .inl ⟨by omega, by omega, h⟩

/-- What a command over one forward round key can do. -/
theorem withRoundKey_next {f : Block → Block → Block} {r : Nat} (h : withRoundKey f r s = .next t) :
    (s.keystate.kv = true ∧ r ≤ roundCount s ∧ t = { s with data := f s.data (roundKey s r), err := .ok }) ∨
    (s.keystate.kv = false ∧ t = { s with err := .noKey }) ∨
    (s.keystate.kv = true ∧ r > roundCount s ∧ t = { s with err := .badIndex }) := by
  obtain ⟨hk, h⟩ | h := requireKey_next h
  · obtain ⟨hr, h⟩ | ⟨hr, h⟩ := requireIndex_next h
    · simp only [commitData_eq, Host.Outcome.next.injEq] at h
      exact .inl ⟨hk, hr, h.symm⟩
    · exact .inr (.inr ⟨hk, hr, h⟩)
  · exact .inr (.inl h)

/-- What a command over one inverse-schedule round key can do. -/
theorem withInvRoundKey_next {f : Block → Block → Block} {r : Nat} (h : withInvRoundKey f r s = .next t) :
    (s.keystate.kv = true ∧ r ≤ roundCount s ∧ t = { s with data := f s.data (invRoundKey s r), err := .ok }) ∨
    (s.keystate.kv = false ∧ t = { s with err := .noKey }) ∨
    (s.keystate.kv = true ∧ r > roundCount s ∧ t = { s with err := .badIndex }) := by
  obtain ⟨hk, h⟩ | h := requireKey_next h
  · obtain ⟨hr, h⟩ | ⟨hr, h⟩ := requireIndex_next h
    · simp only [commitData_eq, Host.Outcome.next.injEq] at h
      exact .inl ⟨hk, hr, h.symm⟩
    · exact .inr (.inr ⟨hk, hr, h⟩)
  · exact .inr (.inl h)

theorem roundKey_of_lt {r : Nat} (h : r < 15) : roundKey s r = s.rk[r] := by
  simp [roundKey, h]

theorem invRoundKey_of_lt {r : Nat} (h : r < 15) : invRoundKey s r = s.irk[r] := by
  simp [invRoundKey, h]

/-! ### What a command can do -/

/-- Everything a command can leave: only ERR written, or S and ERR, or the instance destroyed, or
the staged key's instance constructed. -/
theorem exec_next {i : Instr} (h : exec i s = .next t) :
    (∃ e, t = { s with err := e }) ∨
    (∃ b, t = { s with data := b, err := .ok }) ∨
    (∃ e, (i = .loadkey ∨ i = .clearkey) ∧ t = { destroyInstance s with err := e }) ∨
    (∃ ks, i = .loadkey ∧ keySizeOf s.keylen = some ks ∧
      t = { constructInstance ks (stagedKey ks.words s) s with err := .ok }) := by
  have keyed : ∀ {f r}, withRoundKey f r s = .next t →
      (∃ e, t = { s with err := e }) ∨ ∃ b, t = { s with data := b, err := .ok } := by
    intro f r h
    obtain ⟨-, -, h⟩ | ⟨-, h⟩ | ⟨-, -, h⟩ := withRoundKey_next h
    exacts [.inr ⟨_, h⟩, .inl ⟨_, h⟩, .inl ⟨_, h⟩]
  have invKeyed : ∀ {f r}, withInvRoundKey f r s = .next t →
      (∃ e, t = { s with err := e }) ∨ ∃ b, t = { s with data := b, err := .ok } := by
    intro f r h
    obtain ⟨-, -, h⟩ | ⟨-, h⟩ | ⟨-, -, h⟩ := withInvRoundKey_next h
    exacts [.inr ⟨_, h⟩, .inl ⟨_, h⟩, .inl ⟨_, h⟩]
  have data : ∀ {b}, commitData b s = .next t → ∃ b, t = { s with data := b, err := .ok } := by
    intro b h
    exact ⟨b, by simpa using h.symm⟩
  cases i with
  | nop => exact .inl ⟨.ok, by simpa [exec, execNop] using h.symm⟩
  | loadkey =>
    simp only [exec, execLoadkey] at h
    split at h
    · exact .inr (.inr (.inl ⟨_, .inl rfl, by simpa using h.symm⟩))
    · exact .inr (.inr (.inr ⟨_, rfl, ‹_›, by simpa using h.symm⟩))
  | clearkey => exact .inr (.inr (.inl ⟨.ok, .inr rfl, by simpa [exec, execClearkey] using h.symm⟩))
  | subbytes => exact .inr (.inl (data h))
  | invsubbytes => exact .inr (.inl (data h))
  | shiftrows => exact .inr (.inl (data h))
  | invshiftrows => exact .inr (.inl (data h))
  | mixcolumns => exact .inr (.inl (data h))
  | invmixcolumns => exact .inr (.inl (data h))
  | addrk r => exact (keyed h).imp_right .inl
  | addirk r => exact (invKeyed h).imp_right .inl
  | round r f => exact (keyed h).imp_right .inl
  | finalround r => exact (keyed h).imp_right .inl
  | invround r => exact (invKeyed h).imp_right .inl
  | invfinalround r => exact (invKeyed h).imp_right .inl
  | encrypt f =>
    obtain ⟨-, h⟩ | ⟨-, h⟩ := requireKey_next h
    exacts [.inr (.inl (data h)), .inl ⟨_, h⟩]
  | decrypt =>
    obtain ⟨-, h⟩ | ⟨-, h⟩ := requireKey_next h
    exacts [.inr (.inl (data h)), .inl ⟨_, h⟩]
  | encryptn n f =>
    obtain ⟨-, h⟩ | ⟨-, h⟩ := requireKey_next h
    · obtain ⟨-, h⟩ | ⟨-, h⟩ := requireKey128_next h
      · obtain ⟨-, -, h⟩ | ⟨-, h⟩ := requireRoundCount_next h
        exacts [.inr (.inl (data h)), .inl ⟨_, h⟩]
      · exact .inl ⟨_, h⟩
    · exact .inl ⟨_, h⟩
  | prevrk k =>
    simp only [exec, execPrevrk] at h
    split at h
    · exact .inl ⟨.badIndex, by simpa using h.symm⟩
    · exact .inr (.inl (data h))

/-! ### The register map -/

/-- R39: the register at an offset is the one whose offset it is. -/
theorem regAt_offset (a : RegAddr) : regAt a.offset = some a := by
  cases a with
  | cmd => rfl
  | status => rfl
  | keylen => rfl
  | data j => fin_cases j <;> rfl
  | key j => fin_cases j <;> rfl
  | rk r j => fin_cases r <;> fin_cases j <;> rfl
  | irk r j => fin_cases r <;> fin_cases j <;> rfl

theorem offset_mod_four (a : RegAddr) : a.offset % 4 = 0 := by cases a <;> simp only [RegAddr.offset] <;> omega

theorem offset_le (a : RegAddr) : a.offset ≤ 0xFFF := by cases a <;> simp only [RegAddr.offset] <;> omega

theorem selectReg_offset (a : RegAddr) : selectReg 4 a.offset = some a := by
  have h4 := offset_mod_four a
  have hle := offset_le a
  rw [selectReg, if_neg (by omega), regAt_offset]

/-- R39, R40, R41: an access selects a register exactly when it is a word access at that register's offset. -/
theorem selectReg_eq_some {n off : Nat} {a : RegAddr} : selectReg n off = some a ↔ n = 4 ∧ off = a.offset := by
  constructor
  · intro h
    unfold selectReg at h
    split at h
    · exact absurd h (by simp)
    · rename_i hok
      refine ⟨by omega, ?_⟩
      unfold regAt at h
      split_ifs at h <;>
        first
        | (simp only [Option.some.injEq] at h; subst h; simp only [RegAddr.offset, Fin.ofNat]; omega)
  · rintro ⟨rfl, rfl⟩
    exact selectReg_offset a

theorem selectReg_eq_none {n off : Nat} : selectReg n off = none ↔ n ≠ 4 ∨ ∀ a : RegAddr, off ≠ a.offset := by
  rw [Option.eq_none_iff_forall_ne_some]
  simp only [ne_eq, selectReg_eq_some, not_and]
  constructor
  · intro h
    by_cases hn : n = 4
    · exact .inr fun a => h a hn
    · exact .inl hn
  · rintro (h | h) a hn
    · exact absurd hn h
    · exact h a

/-! ### Host accesses and the step -/

theorem memRead_offset (a : RegAddr) (s : State) : memRead 4 a.offset s = .ok (readReg a s) := by
  simp [memRead, selectReg_offset]

theorem memRead_of_none {n off : Nat} (h : selectReg n off = none) (s : State) :
    memRead n off s = .error (.busError off) := by
  simp [memRead, h]

/-- A read answers the word of the register it selects, and changes no register. -/
theorem memRead_ok {n off : Nat} {v : Word} (h : memRead n off s = .ok v) :
    ∃ a, selectReg n off = some a ∧ v = readReg a s := by
  unfold memRead at h
  split at h
  · exact ⟨_, ‹_›, by simpa using h.symm⟩
  · exact absurd h (by simp)

theorem memWrite_command (v : Word) (s : State) : memWrite 4 0x000 v s = execute v s := rfl

theorem memWrite_of_none {n off : Nat} (h : selectReg n off = none) (v : Word) (s : State) :
    memWrite n off v s = .fault (.busError off) := by
  simp [memWrite, h]

theorem memWrite_offset {a : RegAddr} (h : a ≠ .cmd) (v : Word) (s : State) :
    memWrite 4 a.offset v s = .next (writeReg a v s) := by
  cases a <;> simp_all [memWrite, selectReg_offset]

theorem execute_next {w : Word} (h : execute w s = .next t) :
    (∃ i, decode w = .ok i ∧ exec i s = .next t) ∨ (∃ e, decode w = .error e ∧ t = { s with err := .illegalCommand }) := by
  unfold execute at h
  split at h
  · exact .inr ⟨_, ‹_›, by simpa using h.symm⟩
  · exact .inl ⟨_, ‹_›, h⟩

/-- Everything a write can do: launch a command, or store to a register. -/
theorem memWrite_next {n off : Nat} {v : Word} (h : memWrite n off v s = .next t) :
    (n = 4 ∧ off = 0x000 ∧ execute v s = .next t) ∨
    (∃ a, n = 4 ∧ off = RegAddr.offset a ∧ a ≠ .cmd ∧ t = writeReg a v s) := by
  unfold memWrite at h
  split at h
  · obtain ⟨hn, ho⟩ := selectReg_eq_some.mp ‹_›
    exact .inl ⟨hn, ho, h⟩
  · rename_i a hne hsel
    obtain ⟨hn, ho⟩ := selectReg_eq_some.mp hsel
    exact .inr ⟨a, hn, ho, fun hc => hne (hc ▸ rfl), by simpa using h.symm⟩
  · exact absurd h (by simp)

/-- Everything a host event can do. -/
theorem performEvent_next {e : HostEvent} (h : performEvent e s = .next t) :
    (∃ n off v, e = .read n off ∧ memRead n off s = .ok v ∧ t = { s with reads := s.reads ++ [v] }) ∨
    (∃ n off v, e = .write n off v ∧ memWrite n off v s = .next t) ∨
    (e = .reset ∧ t = resetCore s) := by
  cases e with
  | read n off =>
    simp only [performEvent] at h
    split at h
    · exact .inl ⟨n, off, _, rfl, ‹_›, by simpa using h.symm⟩
    · exact absurd h (by simp)
  | write n off v => exact .inr (.inl ⟨n, off, v, rfl, h⟩)
  | reset => exact .inr (.inr ⟨rfl, by simpa [performEvent] using h.symm⟩)

theorem step_idle (h : s.pending = []) : step s = .next s := by simp [step, performNext, h]

theorem step_event {e : HostEvent} {rest : List HostEvent} (h : s.pending = e :: rest) :
    step s = performEvent e { s with pending := rest } := by
  simp [step, performNext, h]

/-- Everything a step can do: nothing, with no access left, or the oldest event. -/
theorem step_next (h : step s = .next t) :
    (s.pending = [] ∧ t = s) ∨
    (∃ e rest, s.pending = e :: rest ∧ performEvent e { s with pending := rest } = .next t) := by
  cases hp : s.pending with
  | nil => exact .inl ⟨rfl, by simpa [step_idle hp] using h.symm⟩
  | cons e rest => exact .inr ⟨e, rest, rfl, by rwa [step_event hp] at h⟩

end Sys2Proof.Machine
end

