-- ==== Sys2Proof/Laws/PerInstr.lean ====
section
/-! SUPPORT. Per-instruction facts, one lemma per constructor of Instr.

EncodeMatchesRow: the word the encoder writes for a well-formed command matches the command's own row
of the opcode map (30_encoding.md R57). -/

namespace Sys2Proof.Laws.EncodeMatchesRow

/-- R57: a row of the opcode map has the command's mnemonic and matches its word. -/
def Statement (i : Instr) : Prop :=
  i.wellFormed = true → ∃ row ∈ opcodeRows, row.mnemonic = i.mnemonic ∧ row.hits (encode i) = true

theorem nop : Statement .nop := fun _ => by decide

theorem loadkey : Statement .loadkey := fun _ => by decide

theorem clearkey : Statement .clearkey := fun _ => by decide

theorem subbytes : Statement .subbytes := fun _ => by decide

theorem invsubbytes : Statement .invsubbytes := fun _ => by decide

theorem shiftrows : Statement .shiftrows := fun _ => by decide

theorem invshiftrows : Statement .invshiftrows := fun _ => by decide

theorem mixcolumns : Statement .mixcolumns := fun _ => by decide

theorem invmixcolumns : Statement .invmixcolumns := fun _ => by decide

/-- A well-formed index is one of the sixteen IDX values. -/
theorem le_of_idxFits {k : Nat} (h : idxFits k = true) : k ≤ 15 := by simpa [idxFits] using h

theorem addrk (r : Nat) : Statement (.addrk r) := by
  intro h
  have hr := le_of_idxFits h
  interval_cases r <;> decide

theorem addirk (r : Nat) : Statement (.addirk r) := by
  intro h
  have hr := le_of_idxFits h
  interval_cases r <;> decide

theorem round (r : Nat) (f : Bool) : Statement (.round r f) := by
  intro h
  have hr := le_of_idxFits h
  cases f <;> interval_cases r <;> decide

theorem finalround (r : Nat) : Statement (.finalround r) := by
  intro h
  have hr := le_of_idxFits h
  interval_cases r <;> decide

theorem invround (r : Nat) : Statement (.invround r) := by
  intro h
  have hr := le_of_idxFits h
  interval_cases r <;> decide

theorem invfinalround (r : Nat) : Statement (.invfinalround r) := by
  intro h
  have hr := le_of_idxFits h
  interval_cases r <;> decide

theorem encrypt (f : Bool) : Statement (.encrypt f) := by
  intro _
  cases f <;> decide

theorem decrypt : Statement .decrypt := fun _ => by decide

theorem encryptn (n : Nat) (f : Bool) : Statement (.encryptn n f) := by
  intro h
  have hn := le_of_idxFits h
  cases f <;> interval_cases n <;> decide

theorem prevrk (i : Nat) : Statement (.prevrk i) := by
  intro h
  have hi := le_of_idxFits h
  interval_cases i <;> decide

end Sys2Proof.Laws.EncodeMatchesRow
end

