-- ==== Sys2Proof/Tests/Slice0.lean ====
section
/-! SUPPORT. Tests and witnesses.

The expected results are the spec's own vectors (spec/95_test_vectors.md, by their ids) or are written out from
its encodings. A witness shows a state and operands that meet the hypotheses of the statement it is named for. -/

namespace Sys2Proof.Tests

open Sys2Proof.Machine

/-! ### Well-formedness: an index that does not fit its field is refused -/

theorem test_addrk_index_16_refused : (Instr.addrk 16).wellFormed = false := by decide
theorem test_addirk_index_16_refused : (Instr.addirk 16).wellFormed = false := by decide
theorem test_round_index_16_refused : (Instr.round 16 true).wellFormed = false := by decide
theorem test_finalround_index_16_refused : (Instr.finalround 16).wellFormed = false := by decide
theorem test_invround_index_16_refused : (Instr.invround 16).wellFormed = false := by decide
theorem test_invfinalround_index_16_refused : (Instr.invfinalround 16).wellFormed = false := by decide
theorem test_encryptn_count_16_refused : (Instr.encryptn 16 false).wellFormed = false := by decide
theorem test_prevrk_index_16_refused : (Instr.prevrk 16).wellFormed = false := by decide
theorem test_index_15_accepted : (Instr.addrk 15).wellFormed = true := by decide

/-! ### Decoding: RSV2 (15 bits), F, RSV1 (4), IDX (4), OP (8), written out from R54 and R57 -/

theorem test_decode_nop : decode 0b000000000000000_0_0000_0000_00000000 = .ok .nop := by decide
theorem test_decode_loadkey : decode 0b000000000000000_0_0000_0000_00000001 = .ok .loadkey := by decide
theorem test_decode_clearkey : decode 0b000000000000000_0_0000_0000_00000010 = .ok .clearkey := by decide
theorem test_decode_subbytes : decode 0b000000000000000_0_0000_0000_00010000 = .ok .subbytes := by decide
theorem test_decode_invsubbytes : decode 0b000000000000000_0_0000_0000_00010001 = .ok .invsubbytes := by decide
theorem test_decode_shiftrows : decode 0b000000000000000_0_0000_0000_00010010 = .ok .shiftrows := by decide
theorem test_decode_invshiftrows : decode 0b000000000000000_0_0000_0000_00010011 = .ok .invshiftrows := by decide
theorem test_decode_mixcolumns : decode 0b000000000000000_0_0000_0000_00010100 = .ok .mixcolumns := by decide
theorem test_decode_invmixcolumns : decode 0b000000000000000_0_0000_0000_00010101 = .ok .invmixcolumns := by decide
theorem test_decode_addrk : decode 0b000000000000000_0_0000_1011_00010110 = .ok (.addrk 11) := by decide
theorem test_decode_addirk : decode 0b000000000000000_0_0000_1110_00010111 = .ok (.addirk 14) := by decide
theorem test_decode_round : decode 0b000000000000000_0_0000_0011_00100000 = .ok (.round 3 false) := by decide
theorem test_decode_round_fast : decode 0b000000000000000_1_0000_1001_00100000 = .ok (.round 9 true) := by decide
theorem test_decode_finalround : decode 0b000000000000000_0_0000_1010_00100001 = .ok (.finalround 10) := by decide
theorem test_decode_invround : decode 0b000000000000000_0_0000_0001_00100010 = .ok (.invround 1) := by decide
theorem test_decode_invfinalround : decode 0b000000000000000_0_0000_1100_00100011 = .ok (.invfinalround 12) := by decide
theorem test_decode_encrypt : decode 0b000000000000000_0_0000_0000_00110000 = .ok (.encrypt false) := by decide
theorem test_decode_encrypt_fast : decode 0b000000000000000_1_0000_0000_00110000 = .ok (.encrypt true) := by decide
theorem test_decode_decrypt : decode 0b000000000000000_0_0000_0000_00110001 = .ok .decrypt := by decide
theorem test_decode_encryptn : decode 0b000000000000000_1_0000_0100_00110010 = .ok (.encryptn 4 true) := by decide
theorem test_decode_prevrk : decode 0b000000000000000_0_0000_1111_01000000 = .ok (.prevrk 15) := by decide

/-- L2-E6, L2-E21 to L2-E29. -/
theorem test_decode_illegal_words :
    [0x00001032, 0x00001020, 0x00010031, 0x00010016, 0x00000110, 0x00000003, 0x000000FF, 0x80000000, 0x00010940,
        0x00020030].map decode =
      [.error .reservedNonzero, .error .reservedNonzero, .error .fastNotTaken, .error .fastNotTaken,
        .error .idxNotTaken, .error .unassignedOpcode, .error .unassignedOpcode, .error .reservedNonzero,
        .error .fastNotTaken, .error .reservedNonzero] := by decide

theorem test_table_word : decodeTableWord 32 0x00010432 = some (.encryptn 4 true) := by decide

/-! ### Field tables (L2-F) -/

theorem test_xtime : xtime 0x57 = 0xAE ∧ xtime 0x80 = 0x1B := by decide
theorem test_gmul : gmul 0x57 0x83 = 0xC1 ∧ gmul 0x57 0x13 = 0xFE := by decide
theorem test_mul_0x80 : [0x02, 0x03, 0x09, 0x0B, 0x0D, 0x0E].map (fun c => mulTable c 0x80) =
    [0x1B, 0x9B, 0xEC, 0xF7, 0xDA, 0x41] := by decide
theorem test_mul_0xFF : [0x02, 0x03, 0x09, 0x0B, 0x0D, 0x0E].map (fun c => mulTable c 0xFF) =
    [0xE5, 0x1A, 0x46, 0xA3, 0x97, 0x8D] := by decide
theorem test_sbox : [0x00, 0x01, 0x53, 0x63, 0xFF].map sbox = [0x63, 0x7C, 0xED, 0xFB, 0x16] := by decide
theorem test_inv_sbox : [0x00, 0x63, 0xED, 0x16, 0x7C].map invSbox = [0x52, 0x00, 0x53, 0xFF, 0x01] := by decide
theorem test_affine_of_zero_is_sbox_zero : affine 0x00 = sbox 0x00 := by decide
theorem test_t_tables : tTable1 0x53 = 0x2CC1EDED ∧ tTable2 0x53 = 0xED2CC1ED ∧ tTable3 0x53 = 0xEDED2CC1 := by decide

/-! ### Commands, one step each -/

/-- S and STATUS after a command word, from a state. -/
def afterWord (w : Word) (s : State) : Option (Block × Word) :=
  match step (presentCommand w s) with
  | .next t => some (t.data, statusWord t)
  | .fault _ => none
  | .refused _ => none

/-- The bytes 0, 1, 2, ... -/
def countingKey (ks : KeySize) : List Byte := (List.range (4 * ks.words)).map (BitVec.ofNat 8)

/-- The instance of a key, with S given and ERR = OK. -/
def loaded (ks : KeySize) (key : List Byte) (h : BitVec 128) : State :=
  { constructInstance ks key State.reset with data := Block.ofHex h }

/-- L1-1's key loaded. -/
def key16 (h : BitVec 128) : State := loaded .aes128 exampleKey h

/-- L2-K5's key loaded. -/
def key24 (h : BitVec 128) : State := loaded .aes192 (countingKey .aes192) h

/-- L2-K6's key loaded. -/
def key32 (h : BitVec 128) : State := loaded .aes256 (countingKey .aes256) h

/-- No key, S given. -/
def noKey (h : BitVec 128) : State := { State.reset with data := Block.ofHex h }

/-- L2-D11. -/
theorem test_nop : afterWord 0x00000000 { key16 7 with err := .badIndex } = some (Block.ofHex 7, 0x00000A41) := by
  decide +kernel

/-- L2-K1, L2-K2: LOADKEY of L1-1's key. -/
theorem test_loadkey : (match step (presentCommand 0x00000001 (stagedExample 0)) with
    | .next t => some (statusWord t, t.rk[5], t.irk[9], t.rk[11])
    | .fault _ => none
    | .refused _ => none) =
      some (0x00000A41, Block.ofHex 0xd4d1c6f87c839d87caf2b8bc11f915bc, Block.ofHex 0x2b3708a7f262d405bc3ebdbf4b617d62,
        zeroBlock) := by decide +kernel

/-- L2-K8. -/
theorem test_loadkey_illegal_lengths : 
    [0, 15, 0x14, 33, 0x00010010, 0xFFFFFFFF].map (fun v => afterWord 0x00000001 { key16 7 with keylen := v }) =
      List.replicate 6 (some (Block.ofHex 7, 0x00002000)) := by decide +kernel

/-- L2-K9. -/
theorem test_clearkey : afterWord 0x00000002 (key16 7) = some (Block.ofHex 7, 0x00000000) := by decide +kernel

/-- L2-C3. -/
theorem test_subbytes : afterWord 0x00000010 (noKey 0x193de3bea0f4e22b9ac68d2ae9f84808) =
    some (Block.ofHex 0xd42711aee0bf98f1b8b45de51e415230, 0) := by decide +kernel

/-- L2-C6. -/
theorem test_invsubbytes : afterWord 0x00000011 (noKey 0x638293c31bfc33f5c4eeacea4bc12816) =
    some (Block.ofHex 0x00112233445566778899aabbccddeeff, 0) := by decide +kernel

/-- L2-C8. -/
theorem test_shiftrows : afterWord 0x00000012 (noKey 0xd42711aee0bf98f1b8b45de51e415230) =
    some (Block.ofHex 0xd4bf5d30e0b452aeb84111f11e2798e5, 0) := by decide +kernel

/-- L2-C9. -/
theorem test_invshiftrows : afterWord 0x00000013 (noKey 0x000102030405060708090a0b0c0d0e0f) =
    some (Block.ofHex 0x000d0a0704010e0b0805020f0c090603, 0) := by decide +kernel

/-- L2-C11. -/
theorem test_mixcolumns : afterWord 0x00000014 (noKey 0xd4bf5d30e0b452aeb84111f11e2798e5) =
    some (Block.ofHex 0x046681e5e0cb199a48f8d37a2806264c, 0) := by decide +kernel

/-- L2-C15. -/
theorem test_invmixcolumns : afterWord 0x00000015 (noKey 0x8e4da1bc9fdc589d01010101c6c6c6c6) =
    some (Block.ofHex 0xdb135345f20a225c01010101c6c6c6c6, 0) := by decide +kernel

/-- L2-C18. -/
theorem test_addrk : afterWord 0x00000116 (key16 0x046681e5e0cb199a48f8d37a2806264c) =
    some (Block.ofHex 0xa49c7ff2689f352b6b5bea43026a5049, 0x00000A41) := by decide +kernel

/-- L2-E19 and L2-E20: the index limits of a 32-byte key. -/
theorem test_addrk_limits : (afterWord 0x00000F16 (key32 0)).map Prod.snd = some 0x00004E81 ∧
    (afterWord 0x00000E16 (key32 0)).map Prod.snd = some 0x00000E81 := by decide +kernel

/-- L2-C19. -/
theorem test_addirk : afterWord 0x00000017 (key16 0x3925841d02dc09fbdc118597196a0b32) =
    some (Block.ofHex 0xe9317db5cb322c723d2e895faf090794, 0x00000A41) := by decide +kernel

/-- L2-D3, by either datapath. -/
theorem test_round : 
    [0x00000920, 0x00010920].map (fun w => afterWord w (key16 0xea835cf00445332d655d98ad8596b0c5)) =
      List.replicate 2 (some (Block.ofHex 0xeb40f21e592e38848ba113e71bc342d2, 0x00000A41)) := by decide +kernel

/-- L2-E16. -/
theorem test_round_index_above_nr : afterWord 0x00000D20 (key24 7) = some (Block.ofHex 7, 0x00004C61) := by decide +kernel

/-- L2-D4. -/
theorem test_finalround : afterWord 0x00000A21 (key16 0xeb40f21e592e38848ba113e71bc342d2) =
    some (Block.ofHex 0x3925841d02dc09fbdc118597196a0b32, 0x00000A41) := by decide +kernel

/-- L2-D6. -/
theorem test_invround : afterWord 0x00000922 (key16 0x49db873b453953897f02d2f177de961a) =
    some (Block.ofHex 0xd4bf5d30e0b452aeb84111f11e2798e5, 0x00000A41) := by decide +kernel

/-- L2-D7. -/
theorem test_invfinalround : afterWord 0x00000A23 (key16 0xd4bf5d30e0b452aeb84111f11e2798e5) =
    some (Block.ofHex 0x3243f6a8885a308d313198a2e0370734, 0x00000A41) := by decide +kernel

/-- L2-K5. -/
theorem test_encrypt_aes192 : afterWord 0x00000030 (key24 0x00112233445566778899aabbccddeeff) =
    some (Block.ofHex 0xdda97ca4864cdfe06eaf70a0ec0d7191, 0x00000C61) := by decide +kernel

/-- L2-K6, on the T-table datapath. -/
theorem test_encrypt_aes256_fast : afterWord 0x00010030 (key32 0x00112233445566778899aabbccddeeff) =
    some (Block.ofHex 0x8ea2b7ca516745bfeafc49904b496089, 0x00000E81) := by decide +kernel

/-- L2-K6's note. -/
theorem test_decrypt_aes256 : afterWord 0x00000031 (key32 0x8ea2b7ca516745bfeafc49904b496089) =
    some (Block.ofHex 0x00112233445566778899aabbccddeeff, 0x00000E81) := by decide +kernel

/-- L2-E2. -/
theorem test_decrypt_without_key : afterWord 0x00000031 (noKey 7) = some (Block.ofHex 7, 0x00003000) := by decide +kernel

/-- L2-N1: no full round. -/
theorem test_encryptn_one : afterWord 0x00000132 (key16 0x3243f6a8885a308d313198a2e0370734) =
    some (Block.ofHex 0x7445a32768e07e1f9be228c8344beee0, 0x00000A41) := by decide +kernel

/-- L2-E4, L2-E7, L2-E8 and L2-E17: the errors of ENCRYPTN. -/
theorem test_encryptn_errors : (afterWord 0x00000432 (noKey 0)).map Prod.snd = some 0x00003000 ∧
    (afterWord 0x00000032 (key16 0)).map Prod.snd = some 0x00004A41 ∧
    (afterWord 0x00000B32 (key16 0)).map Prod.snd = some 0x00004A41 ∧
    (afterWord 0x00000432 (key24 0)).map Prod.snd = some 0x00005C61 := by decide +kernel

/-- L2-K13. -/
theorem test_prevrk : afterWord 0x00000040 (noKey 0) = some (Block.ofHex 0x62636363000000000000000000000000, 0) := by
  decide +kernel

/-- L2-K14. -/
theorem test_prevrk_index_above_nine : afterWord 0x00000A40 (noKey 7) = some (Block.ofHex 7, 0x00004000) := by
  decide +kernel

/-! ### Host accesses (L2-B) -/

theorem test_reads_of_a_loaded_key :
    memRead 4 0x000 (key16 0) = .ok 0 ∧ memRead 4 0x1A0 (key16 0) = .ok 0xd014f9a8 ∧
      memRead 4 0x2A0 (key16 0) = .ok 0x2b7e1516 ∧ memRead 4 0x1D0 (key24 0) = .ok 0 := by decide +kernel

/-- L2-B6, L2-B8. -/
theorem test_bus_errors :
    step { State.reset with pending := [.read 4 0x002] } = .fault (.busError 0x002) ∧
      step { State.reset with pending := [.write 1 0x000 0] } = .fault (.busError 0x000) := ⟨rfl, rfl⟩

/-- L2-B7. -/
theorem test_unmapped_offsets : [0x00C, 0x040, 0x1F0, 0x2F0, 0xFFC].map (selectReg 4) = List.replicate 5 none := by decide

/-- P1 line 1 and P3 line 2: what LDKEY and CPRK expand to. -/
theorem test_program_lines :
    (HostLine.ldKey exampleKey).expand =
        some [.write 4 0x020 0x2B7E1516, .write 4 0x024 0x28AED2A6, .write 4 0x028 0xABF71588, .write 4 0x02C 0x09CF4F3C,
          .write 4 0x008 0x00000010, .write 4 0x000 0x00000001] ∧
      (HostLine.cpRk 10 #v[0xD014F9A8, 0xC9EE2589, 0xE13F0CC8, 0xB6630CA6]).expand =
        some [.read 4 0x1A0, .read 4 0x1A4, .read 4 0x1A8, .read 4 0x1AC, .write 4 0x010 0xD014F9A8,
          .write 4 0x014 0xC9EE2589, .write 4 0x018 0xE13F0CC8, .write 4 0x01C 0xB6630CA6] := by decide

/-! ### Witnesses: encoding -/

theorem witness_opcode_map : decode 0x00000320 = .ok (.round 3 false) ∧
    ∃ row ∈ opcodeRows, row.mnemonic = "ROUND" ∧ row.hits 0x00000320 = true := by decide

/-- Both ends of each listed opcode range, and each field clause. -/
theorem witness_listed_illegal :
    ListedIllegal 0x03 ∧ ListedIllegal 0x0F ∧ ListedIllegal 0x18 ∧ ListedIllegal 0x1F ∧
    ListedIllegal 0x24 ∧ ListedIllegal 0x2F ∧ ListedIllegal 0x33 ∧ ListedIllegal 0x3F ∧
    ListedIllegal 0x41 ∧ ListedIllegal 0xFF ∧ ListedIllegal 0x00001020 ∧ ListedIllegal 0x00020030 ∧
    ListedIllegal 0x00000110 ∧ ListedIllegal 0x00010016 := by
  refine ⟨?_, ?_, ?_, ?_, ?_, ?_, ?_, ?_, ?_, ?_, ?_, ?_, ?_, ?_⟩ <;> (unfold ListedIllegal; decide)

/-- The opcodes beside the listed ranges. -/
theorem witness_not_listed_illegal :
    ¬ ListedIllegal 0x02 ∧ ¬ ListedIllegal 0x10 ∧ ¬ ListedIllegal 0x17 ∧ ¬ ListedIllegal 0x20 ∧
    ¬ ListedIllegal 0x23 ∧ ¬ ListedIllegal 0x30 ∧ ¬ ListedIllegal 0x32 ∧ ¬ ListedIllegal 0x40 := by
  refine ⟨?_, ?_, ?_, ?_, ?_, ?_, ?_, ?_⟩ <;> (unfold ListedIllegal; decide)

theorem witness_round_trip : (Instr.encryptn 15 true).wellFormed = true ∧ decode 0x00010F32 = .ok (.encryptn 15 true) := by
  decide

theorem witness_assembler : assemble ⟨"ENCRYPTN", true, some 4⟩ = some 0x00010432 ∧ (16 > 15) ∧
    (∃ row ∈ opcodeRows, row.format = .n) ∧ ∃ row ∈ opcodeRows, row.format = .i := by decide

/-- Every row has an illegal form with its own OP. -/
theorem witness_illegal_forms : ∀ row ∈ opcodeRows, opField (row.pattern ||| 0x1000) = opField row.pattern ∧
    (row.pattern ||| 0x1000) &&& row.mask ≠ row.pattern := by decide

theorem witness_step_runs :
    ({ State.reset with pending := [.write 4 0x000 0x00000030] } : State).pending = .write 4 0x000 0x00000030 :: [] ∧
      decode 0x00000030 = .ok (.encrypt false) ∧ decode 0x000000FF = .error .unassignedOpcode ∧
      decodeTableWord 32 0x40 = some (.prevrk 0) ∧ State.reset.pending = [] := by decide

/-! ### Witnesses: functions -/

theorem witness_round_constants : 1 ≤ 10 ∧ 10 > 9 := by decide

theorem witness_key_lengths : ∀ ks ∈ [KeySize.aes128, .aes192, .aes256], (countingKey ks).length = 4 * ks.words ∧
    0 < ks.words ∧ ks.words ≤ 4 * (ks.rounds + 1) - 1 := by decide

theorem witness_inverse_schedule : (keyExpansion .aes256 (countingKey .aes256)).length = 14 + 1 ∧
    (keyExpansion .aes128 exampleKey).length = KeySize.aes128.rounds + 1 := by decide +kernel

theorem witness_prefix_stable : exampleKey.length = 16 ∧ 10 ≤ KeySize.aes128.rounds ∧
    (keyExpansion .aes128 exampleKey).getD 9 zeroBlock = (keyExpansion .aes128 exampleKey).getD 9 zeroBlock := by
  decide +kernel

theorem witness_cipher_rounds : 1 ≤ 1 ∧ 1 ≤ KeySize.aes256.rounds := by decide

theorem witness_fast_inverse : fastField 0x00010031 = true ∧
    opField 0x00010031 ∈ ([0x11, 0x13, 0x15, 0x17, 0x22, 0x23, 0x31] : List Byte) := by decide

/-! ### Witnesses: commands -/

theorem witness_nop : statusWord { State.reset with err := .noKey } = 0x00003000 := by decide

theorem witness_loadkey : ∀ ks ∈ [KeySize.aes128, .aes192, .aes256],
    ({ State.reset with keylen := BitVec.ofNat 32 (4 * ks.words) } : State).keylen = BitVec.ofNat 32 (4 * ks.words) := by
  decide

theorem witness_loadkey_illegal : State.reset.keylen ≠ 16 ∧ State.reset.keylen ≠ 24 ∧
    State.reset.keylen ≠ 32 ∧ consumesKey .decrypt = true := by decide

/-- The three loaded keys and the reset state meet the invariant; each has a legal KEYSTATE. -/
theorem witness_holds_key : (key16 0).holdsKey .aes128 exampleKey ∧ (key24 0).holdsKey .aes192 (countingKey .aes192) ∧
    (key32 0).holdsKey .aes256 (countingKey .aes256) := by unfold State.holdsKey; decide +kernel

theorem witness_instance_loaded : (key32 0).instanceInv ∧ (key32 0).keystate.kv = true ∧ (key32 0).keystate.legal :=
  ⟨.inr ⟨_, _, witness_holds_key.2.2⟩, by decide, .inr (.inr (.inr (by decide)))⟩

theorem witness_instance_empty : State.reset.instanceInv ∧ State.reset.keystate.kv = false ∧
    step State.reset = .next State.reset :=
  ⟨.inl ⟨by decide, by decide⟩, by decide, rfl⟩

theorem witness_zero_data : State.reset.data = zeroBlock ∧
    (∀ r c : Fin 4, State.reset.data.at r c = State.reset.data.at r 0) := by decide

theorem witness_equal_columns : (Block.ofHex 0xdb135345f20a225c01010101c6c6c6c6).col 2 = ⟨1, 1, 1, 1⟩ ∧
    zeroBlock.col 0 = ⟨0, 0, 0, 0⟩ ∧ (Block.ofHex 1).col 0 = zeroBlock.col 0 := by decide

/-- Both ends of the index range of each key size, and the first index above it. -/
theorem witness_keyed_indices : (key16 0).keystate.kv = true ∧ 0 ≤ (key16 0).keystate.nr.toNat ∧
    10 ≤ (key16 0).keystate.nr.toNat ∧ 11 > (key16 0).keystate.nr.toNat ∧ 14 ≤ (key32 0).keystate.nr.toNat ∧
    State.reset.keystate.kv = false ∧ 1 ≤ (key16 0).keystate.nr.toNat ∧ 5 < (key16 0).keystate.nr.toNat := by decide

theorem witness_encryptn : (key16 0).keystate = ⟨true, 4, 10⟩ ∧ (key16 0).keystate.nk = 4 ∧ (key24 0).keystate.kv = true ∧
    (key24 0).keystate.nk ≠ 4 ∧ 1 ≤ (key16 0).keystate.nr.toNat ∧ 11 > (key16 0).keystate.nr.toNat := by decide

theorem witness_prevrk :
    (noKey 0xd014f9a8c9ee2589e13f0cc8b6630ca6).data = (keyExpansion .aes128 exampleKey).getD 10 zeroBlock ∧
      exampleKey.length = 16 ∧ 9 ≤ 9 ∧ 10 > 9 := by decide +kernel

/-! ### Witnesses: the machine -/

/-- Two host writes and their two steps reach a state with a key loaded. -/
theorem witness_reachable_loaded : ∃ s, Reachable s ∧ s.keystate.kv = true :=
  have h0 := Reachable.hostChooses _ [.write 4 0x008 16, .write 4 0x000 0x00000001] Reachable.reset
  have h1 := Reachable.step _ { State.reset with keylen := 16, pending := [.write 4 0x000 0x00000001] } h0 rfl
  ⟨_, Reachable.step _ _ h1 rfl, rfl⟩

theorem witness_keystate_frame : exec .nop State.reset = .next State.reset ∧ writesInstance .nop = false ∧
    writesData .nop = false ∧ memWrite 4 0x008 16 State.reset = .next { State.reset with keylen := 16 } :=
  ⟨rfl, rfl, rfl, rfl⟩

theorem witness_status : (stagedExample 0).keylen = 16 := by decide

theorem witness_command_errors :
    memWrite 4 0x000 0x00000030 State.reset = .next { State.reset with err := .noKey } ∧
      memWrite 4 0x000 0x00000001 State.reset = .next { State.reset with err := .invalidKeySize } := ⟨rfl, rfl⟩

/-- Each clause alone, at the ends of its range. -/
theorem witness_bad_access : ∀ nOff ∈ ([(1, 0x000), (8, 0x000), (4, 0x001), (4, 0x003), (4, 0x00C), (4, 0x040), (4, 0x0FC),
    (4, 0x1F0), (4, 0x1FC), (4, 0x2F0), (4, 0xFFC), (4, 0x1000)] : List (Nat × Nat)), BadAccess nOff.1 nOff.2 := by
  unfold BadAccess; decide

/-- The offsets beside the ranges. -/
theorem witness_good_access : ∀ off ∈ ([0x000, 0x004, 0x008, 0x010, 0x03C, 0x100, 0x1EC, 0x200, 0x2EC] : List Nat),
    ¬ BadAccess 4 off := by unfold BadAccess; decide

theorem witness_bad_step : ({ State.reset with pending := [.read 4 0x00C] } : State).pending = .read 4 0x00C :: [] ∧
    ({ State.reset with pending := [.write 4 0x008 16] } : State).pending = .write 4 0x008 16 :: [] := by decide

/-- A byte read of CMD at the ports. -/
theorem witness_bad_port : (⟨false, true, false, 0, 0, 0⟩ : PortIn).rst = false ∧
    (⟨false, true, false, 0, 0, 0⟩ : PortIn).req = true ∧
    BadAccess (bytesOfSize (⟨false, true, false, 0, 0, 0⟩ : PortIn).size) (⟨false, true, false, 0, 0, 0⟩ : PortIn).addr.toNat :=
  ⟨rfl, rfl, .inl (by decide)⟩

theorem witness_repeated_write : memRead 4 0x004 (key16 0) = .ok 0x00000A41 ∧ 0x010 ≤ 0x010 ∧ 0x010 < 0x040 ∧ 0x010 % 4 = 0 ∧
    0x03C < 0x040 ∧ 0x03C % 4 = 0 := by decide

theorem witness_safe_run : ({ State.reset with pending := [.read 4 0x004, .write 4 0x000 1, .reset] } : State).safe := by
  unfold State.safe; decide

theorem witness_reset_cycle : (⟨true, true, true, 2, 0, 1⟩ : PortIn).rst = true ∧
    ¬ BadAccess (bytesOfSize (⟨false, true, false, 2, 4, 0⟩ : PortIn).size) (⟨false, true, false, 2, 4, 0⟩ : PortIn).addr.toNat := by
  unfold BadAccess; decide

theorem witness_held_command : execute 0x00000000 State.reset = .next State.reset ∧ 1 ≤ Config.latency 0x00000000 :=
  ⟨rfl, Nat.succ_pos _⟩

end Sys2Proof.Tests
end

section
/-! The bytes of a block by row and column, and its words as big-endian columns (00_scope.md R14, R15). -/

namespace Sys2Proof

/-- R14: byte `r + 4c` is the byte in row `r` and column `c`. -/
@[simp] theorem Block.byte_row_add_column (s : Block) (r c : Fin 4) (h : r.val + 4 * c.val < 16) :
    s.byte ⟨r.val + 4 * c.val, h⟩ = s.at r c := by
  have hrow : Fin.ofNat 4 ((r.val + 4 * c.val) % 4) = r := Fin.ext (by simp only [Fin.val_ofNat]; omega)
  have hcol : Fin.ofNat 4 ((r.val + 4 * c.val) / 4) = c := Fin.ext (by simp only [Fin.val_ofNat]; omega)
  rw [Block.byte, hrow, hcol]

/-- The byte at an index written as R15 writes it, `4j + k`. -/
theorem Block.byte_of_index (s : Block) (k j : Fin 4) (i : Fin 16) (h : i.val = 4 * j.val + k.val) :
    s.byte i = s.at k j := by
  have hi : i = ⟨k.val + 4 * j.val, by omega⟩ := Fin.ext (h.trans (Nat.add_comm _ _))
  rw [hi, Block.byte_row_add_column]

/-- R15: word `j` is column `j`, row 0 in the top byte. -/
theorem Block.word_eq_rows (s : Block) (j : Fin 4) :
    s.word j = ((s.at 0 j).setWidth 32 <<< 24) ||| ((s.at 1 j).setWidth 32 <<< 16) |||
      ((s.at 2 j).setWidth 32 <<< 8) ||| (s.at 3 j).setWidth 32 := rfl

/-- R15: splitting word `j` of a block into its bytes answers column `j`. -/
@[simp] theorem Column.ofWord_word (s : Block) (j : Fin 4) : Column.ofWord (s.word j) = s.col j :=
  Column.ofWord_toWord (s.col j)

/-- Settles O8: the index arithmetic of `byte_of_index` gives the first two clauses, and the fields of
`ofWord_word` are the four bytes of a word. -/
theorem blockWordsAreBigEndianColumns : Obligations.BlockWordsAreBigEndianColumns := by
  unfold Obligations.BlockWordsAreBigEndianColumns
  refine ⟨fun s r c => ?_, fun s j => ?_, fun s j => ?_, Column.ofWord_word, fun _ => rfl⟩
  · exact (s.byte_row_add_column r c _).symm
  · rw [s.byte_of_index 0 j _ rfl, s.byte_of_index 1 j _ rfl, s.byte_of_index 2 j _ rfl,
      s.byte_of_index 3 j _ rfl, s.word_eq_rows j]
  · have hbytes := Column.ofWord_word s j
    exact ⟨congrArg Column.r0 hbytes, congrArg Column.r1 hbytes, congrArg Column.r2 hbytes,
      congrArg Column.r3 hbytes⟩

end Sys2Proof
end

section
/-! The reset values, and the accesses the register map answers (10_state.md R36; 20_memory.md R39 to R41). -/

namespace Sys2Proof.Machine

/-- R40, R41: the accesses that select no register are exactly the bad ones. -/
theorem selectReg_eq_none_iff_badAccess {n off : Nat} : selectReg n off = none ↔ BadAccess n off := by
  unfold selectReg regAt BadAccess
  split_ifs <;> simp only [true_iff, false_iff] <;> omega

/-- R39: an access that is no bus error is a word access at the offset of a register. -/
theorem exists_regAddr_of_not_badAccess {n off : Nat} (h : ¬ BadAccess n off) :
    ∃ a : RegAddr, n = 4 ∧ off = a.offset := by
  obtain ⟨a, ha⟩ := Option.ne_none_iff_exists'.mp (mt selectReg_eq_none_iff_badAccess.mp h)
  exact ⟨a, selectReg_eq_some.mp ha⟩

@[simp] theorem zeroBlock_byte (i : Fin 16) : zeroBlock.byte i = 0 := by fin_cases i <;> rfl

@[simp] theorem zeroBlock_word (j : Fin 4) : zeroBlock.word j = 0 := by fin_cases j <;> rfl

theorem reset_key_getElem (j : Fin 8) : State.reset.key[j] = 0 := Vector.getElem_replicate j.isLt
theorem reset_rk_getElem (r : Fin 15) : State.reset.rk[r] = zeroBlock := Vector.getElem_replicate r.isLt
theorem reset_irk_getElem (r : Fin 15) : State.reset.irk[r] = zeroBlock := Vector.getElem_replicate r.isLt

theorem statusWord_reset : statusWord State.reset = 0 := by decide

/-- R36: every register of the map reads 0 at reset. -/
theorem readReg_reset (a : RegAddr) : readReg a State.reset = 0 := by
  cases a with
  | cmd => rfl
  | status => exact statusWord_reset
  | keylen => rfl
  | data j => exact zeroBlock_word j
  | key j => exact reset_key_getElem j
  | rk r j => rw [readReg, reset_rk_getElem, zeroBlock_word]
  | irk r j => rw [readReg, reset_irk_getElem, zeroBlock_word]

/-- Settles O57: the registers hold their reset values by definition, and an access that is no bus error reads the
register at its offset, which is 0. -/
theorem resetLeavesEverythingZero : Obligations.ResetLeavesEverythingZero := by
  unfold Obligations.ResetLeavesEverythingZero
  refine ⟨zeroBlock_byte, reset_key_getElem, rfl, rfl, fun r i => ?_, rfl, statusWord_reset, fun n off hgood => ?_⟩
  · rw [reset_rk_getElem, reset_irk_getElem]
    exact ⟨zeroBlock_byte i, zeroBlock_byte i⟩
  · obtain ⟨a, rfl, rfl⟩ := exists_regAddr_of_not_badAccess hgood
    rw [memRead_offset, readReg_reset]

end Sys2Proof.Machine
end

section
/-! What host accesses do: reads and writes by the register map, and bus errors (20_memory.md R39 to R43; 60_exceptions.md
R115). -/

namespace Sys2Proof

/-- R15: row `k` of a split word holds its bits from `24 - 8k` up. -/
theorem Column.get_ofWord (v : Word) (k : Fin 4) : (Column.ofWord v).get k = v.extractLsb' (24 - 8 * k.val) 8 := by
  fin_cases k <;> rfl

/-- R43: replacing word `j` replaces every row of column `j`. -/
theorem Block.at_setCol_same (s : Block) (r j : Fin 4) (c : Column) : (s.setCol j c).at r j = c.get r := by
  rw [Block.at, Block.col_setCol, if_pos rfl]

/-- R43: replacing word `j` keeps every byte of the other columns. -/
theorem Block.byte_setCol_of_ne (s : Block) (j : Fin 4) (c : Column) (i : Fin 16) (h : i.val / 4 ≠ j.val) :
    (s.setCol j c).byte i = s.byte i := by
  have hcol : Fin.ofNat 4 (i.val / 4) ≠ j := fun heq => h (by rw [← heq, Fin.val_ofNat]; omega)
  rw [Block.byte, Block.byte, Block.at, Block.at, Block.col_setCol, if_neg hcol]

end Sys2Proof

namespace Sys2Proof.Machine

/-! ### Commands complete -/

/-- What a command or an access answers is a next state, no fault and no refusal. -/
def Completes (r : Result) : Prop := ∃ t, r = .next t

theorem completes_next (t : State) : Completes (.next t) := ⟨t, rfl⟩

section
variable {s : State} {go : Result}

theorem requireKey_completes (h : Completes go) : Completes (requireKey s go) := by
  unfold requireKey
  split
  · exact h
  · exact completes_next _

theorem requireIndex_completes {r : Nat} (h : Completes go) : Completes (requireIndex r s go) := by
  unfold requireIndex
  split
  · exact completes_next _
  · exact h

theorem requireKey128_completes (h : Completes go) : Completes (requireKey128 s go) := by
  unfold requireKey128
  split
  · exact completes_next _
  · exact h

theorem requireRoundCount_completes {n : Nat} (h : Completes go) : Completes (requireRoundCount n s go) := by
  unfold requireRoundCount
  split
  · exact completes_next _
  · exact h

end

theorem withRoundKey_completes (f : Block → Block → Block) (r : Nat) (s : State) : Completes (withRoundKey f r s) :=
  requireKey_completes (requireIndex_completes (completes_next _))

theorem withInvRoundKey_completes (f : Block → Block → Block) (r : Nat) (s : State) :
    Completes (withInvRoundKey f r s) :=
  requireKey_completes (requireIndex_completes (completes_next _))

/-- R112: every command completes, with or without a command error. -/
theorem exec_completes (i : Instr) (s : State) : Completes (exec i s) := by
  cases i with
  | nop => exact completes_next _
  | loadkey =>
    simp only [exec, execLoadkey]
    split <;> exact completes_next _
  | clearkey => exact completes_next _
  | subbytes => exact completes_next _
  | invsubbytes => exact completes_next _
  | shiftrows => exact completes_next _
  | invshiftrows => exact completes_next _
  | mixcolumns => exact completes_next _
  | invmixcolumns => exact completes_next _
  | addrk r => exact withRoundKey_completes _ r s
  | addirk r => exact withInvRoundKey_completes _ r s
  | round r f => exact withRoundKey_completes _ r s
  | finalround r => exact withRoundKey_completes _ r s
  | invround r => exact withInvRoundKey_completes _ r s
  | invfinalround r => exact withInvRoundKey_completes _ r s
  | encrypt f => exact requireKey_completes (completes_next _)
  | decrypt => exact requireKey_completes (completes_next _)
  | encryptn n f =>
    exact requireKey_completes (requireKey128_completes (requireRoundCount_completes (completes_next _)))
  | prevrk k =>
    simp only [exec, execPrevrk]
    split <;> exact completes_next _

theorem execute_completes (w : Word) (s : State) : Completes (execute w s) := by
  unfold execute
  split
  · exact completes_next _
  · exact exec_completes _ s

/-! ### Accesses inside and outside the register map -/

/-- Settles O52: each offset of the statement is the offset of one register of the map, and a bad access selects none. -/
theorem readsFollowTheRegisterMap : Obligations.ReadsFollowTheRegisterMap := by
  unfold Obligations.ReadsFollowTheRegisterMap
  refine ⟨fun s => ⟨memRead_offset .cmd s, memRead_offset .status s, memRead_offset .keylen s⟩,
    fun s j => memRead_offset (.data j) s, fun s j => memRead_offset (.key j) s,
    fun s r j => ⟨memRead_offset (.rk r j) s, memRead_offset (.irk r j) s⟩, fun s n off hbad => ?_⟩
  exact memRead_of_none (selectReg_eq_none_iff_badAccess.mpr hbad) s

/-- Settles O53: a write at a register's offset is `writeReg` of that register, which for DATA is `setCol` and for KEY
is `Vector.set`; a bad access selects no register. -/
theorem writesFollowTheRegisterMap : Obligations.WritesFollowTheRegisterMap := by
  unfold Obligations.WritesFollowTheRegisterMap
  refine ⟨fun s v => ⟨memWrite_command v s, memWrite_offset (a := .status) nofun v s,
      memWrite_offset (a := .keylen) nofun v s⟩, fun s j v => ?_, fun s j v => ?_, fun s r j v =>
      ⟨memWrite_offset (a := .rk r j) nofun v s, memWrite_offset (a := .irk r j) nofun v s⟩, fun s n off v hbad => ?_⟩
  · refine ⟨s.data.setCol j (Column.ofWord v), memWrite_offset (a := .data j) nofun v s, fun k => ?_, fun i hi => ?_⟩
    · rw [Block.byte_of_index _ k j _ rfl, Block.at_setCol_same, Column.get_ofWord]
    · exact Block.byte_setCol_of_ne s.data j _ i hi
  · refine ⟨s.key.set j.val v j.isLt, memWrite_offset (a := .key j) nofun v s, fun i => ?_⟩
    simp only [Fin.getElem_fin, Vector.getElem_set, Fin.ext_iff, eq_comm]
  · exact memWrite_of_none (selectReg_eq_none_iff_badAccess.mpr hbad) v s

/-- R115: an access that reaches no register is a bus error at its offset, a read or a write alike. -/
theorem performEvent_of_badAccess {n off : Nat} (hbad : BadAccess n off) {e : HostEvent} {v : Word}
    (he : e = .read n off ∨ e = .write n off v) (s : State) : performEvent e s = .fault (.busError off) := by
  have hnone := selectReg_eq_none_iff_badAccess.mpr hbad
  obtain rfl | rfl := he
  · rw [performEvent, memRead_of_none hnone]
  · exact memWrite_of_none hnone v s

/-- R40, R41: an access at a register's offset completes: it reads, launches a command or stores. -/
theorem performEvent_completes_of_not_badAccess {n off : Nat} (hgood : ¬ BadAccess n off) {e : HostEvent} {v : Word}
    (he : e = .read n off ∨ e = .write n off v) (s : State) : Completes (performEvent e s) := by
  obtain ⟨a, rfl, rfl⟩ := exists_regAddr_of_not_badAccess hgood
  obtain rfl | rfl := he
  · rw [performEvent, memRead_offset]
    exact completes_next _
  · by_cases hcmd : a = .cmd
    · subst hcmd
      exact execute_completes v s
    · exact ⟨_, memWrite_offset hcmd v s⟩

/-! ### Bus errors at the ports -/

theorem PortIn.event_eq_read_or_write (p : PortIn) : p.event = .read (bytesOfSize p.size) p.addr.toNat ∨
    p.event = .write (bytesOfSize p.size) p.addr.toNat p.wdata := by
  unfold PortIn.event
  cases p.we with
  | false => exact .inl rfl
  | true => exact .inr rfl

/-- A word write to CMD is no bad access, so a bad access is never held on the bus. -/
theorem PortIn.writesCommand_of_badAccess {p : PortIn} (hbad : BadAccess (bytesOfSize p.size) p.addr.toNat) :
    p.writesCommand = false := by
  refine Bool.eq_false_iff.mpr fun hcmd => ?_
  simp only [PortIn.writesCommand, Bool.and_eq_true, beq_iff_eq] at hcmd
  obtain ⟨⟨-, hsize⟩, haddr⟩ := hcmd
  rw [hsize, haddr] at hbad
  exact absurd hbad (by unfold BadAccess; decide)

/-- R115: the cycle that answers a bus error leaves the core's state as it was. -/
theorem finishAccess_of_busError {e : HostEvent} {s : State} {off : Nat}
    (h : performEvent e s = .fault (.busError off)) : finishAccess e s = .ok (⟨s, none⟩, .busError) := by
  rw [finishAccess, h]

/-- R125: with no reset and no command held, an access that is no word write to CMD finishes in the cycle it is
presented. -/
theorem clockEdge_free {p : PortIn} (hrst : p.rst = false) (hreq : p.req = true) (hcmd : p.writesCommand = false)
    (s : State) : clockEdge p ⟨s, none⟩ = finishAccess p.event s := by
  simp [clockEdge, freeCycle, hrst, hreq, hcmd]

/-- Settles O55: a step performs its oldest access, which is a bus error or completes by the register map; a bad access
at the ports is never held, so it finishes at once with the error response. -/
theorem badAccessesAreBusErrors : Obligations.BadAccessesAreBusErrors := by
  unfold Obligations.BadAccessesAreBusErrors
  refine ⟨fun s rest n off v hbad hp => ?_, fun s rest n off v hgood hp => ?_, fun s p hrst hreq hbad => ?_⟩
  · obtain hp | hp := hp
    · rw [step_event hp, performEvent_of_badAccess hbad (v := v) (.inl rfl)]
    · rw [step_event hp, performEvent_of_badAccess hbad (.inr rfl)]
  · obtain hp | hp := hp
    · rw [step_event hp]
      exact performEvent_completes_of_not_badAccess hgood (v := v) (.inl rfl) _
    · rw [step_event hp]
      exact performEvent_completes_of_not_badAccess hgood (.inr rfl) _
  · rw [clockEdge_free hrst hreq (PortIn.writesCommand_of_badAccess hbad)]
    exact finishAccess_of_busError (performEvent_of_badAccess hbad p.event_eq_read_or_write s)

end Sys2Proof.Machine
end

section
/-! The fields of a command word, and the words a row of the opcode map matches (30_encoding.md R54, R55, R57). -/

namespace Sys2Proof

/-- R54: the five fields cover bits 31:0, so they determine the word. -/
theorem word_eq_iff_fields {v w : Word} : v = w ↔
    opField v = opField w ∧ idxField v = idxField w ∧ rsv1Field v = rsv1Field w ∧ fastField v = fastField w ∧
      rsv2Field v = rsv2Field w := by
  refine ⟨by rintro rfl; exact ⟨rfl, rfl, rfl, rfl, rfl⟩, fun ⟨hop, hidx, hrsv1, hfast, hrsv2⟩ => ?_⟩
  simp only [opField, idxField, rsv1Field, fastField, rsv2Field, ← BitVec.toNat_inj, BitVec.extractLsb'_toNat,
    Nat.shiftRight_eq_div_pow, BitVec.getLsbD, Nat.testBit_eq_decide_div_mod_eq, decide_eq_decide]
    at hop hidx hrsv1 hfast hrsv2 ⊢
  omega

/-! ### The fields of an AND, of a lone OP and of a format's mask -/

theorem opField_and (v w : Word) : opField (v &&& w) = opField v &&& opField w := BitVec.extractLsb'_and

theorem idxField_and (v w : Word) : idxField (v &&& w) = idxField v &&& idxField w := by
  rw [idxField, BitVec.extractLsb'_and, BitVec.toNat_and, idxField, idxField]

theorem rsv1Field_and (v w : Word) : rsv1Field (v &&& w) = rsv1Field v &&& rsv1Field w := BitVec.extractLsb'_and

theorem fastField_and (v w : Word) : fastField (v &&& w) = (fastField v && fastField w) := BitVec.getLsbD_and

theorem rsv2Field_and (v w : Word) : rsv2Field (v &&& w) = rsv2Field v &&& rsv2Field w := BitVec.extractLsb'_and

theorem opField_setWidth (op : Byte) : opField (op.setWidth 32) = op := by
  ext i hi
  simpa [opField, hi] using fun _ => by omega

theorem idxField_setWidth (op : Byte) : idxField (op.setWidth 32) = 0 := by
  have hlt : op.toNat < 2 ^ 8 := op.isLt
  simpa [idxField] using by omega

theorem rsv1Field_setWidth (op : Byte) : rsv1Field (op.setWidth 32) = 0 := by
  ext i hi
  simpa [rsv1Field] using fun _ => BitVec.getLsbD_of_ge op _ (by omega)

theorem fastField_setWidth (op : Byte) : fastField (op.setWidth 32) = false := by
  simp [fastField]

theorem rsv2Field_setWidth (op : Byte) : rsv2Field (op.setWidth 32) = 0 := by
  ext i hi
  simpa [rsv2Field] using fun _ => BitVec.getLsbD_of_ge op _ (by omega)

/-- R57: the mask of a format's rows, all ones but for the IDX and F bits the format takes. -/
def Format.mask (fmt : Format) : Word :=
  0xFFFFFFFF ^^^ (if fmt.takesIdx then 0x00000F00 else 0) ^^^ (if fmt.takesFast then 0x00010000 else 0)

theorem opField_mask (fmt : Format) : opField fmt.mask = BitVec.allOnes 8 := by cases fmt <;> rfl

theorem idxField_mask (fmt : Format) : idxField fmt.mask = if fmt.takesIdx then 0 else 2 ^ 4 - 1 := by cases fmt <;> rfl

theorem rsv1Field_mask (fmt : Format) : rsv1Field fmt.mask = BitVec.allOnes 4 := by cases fmt <;> rfl

theorem fastField_mask (fmt : Format) : fastField fmt.mask = !fmt.takesFast := by cases fmt <;> rfl

theorem rsv2Field_mask (fmt : Format) : rsv2Field fmt.mask = BitVec.allOnes 15 := by cases fmt <;> rfl

/-! ### Rows and fields -/

/-- R55, R58: the reserved bits are 0, and so are the IDX and F bits the format does not take. -/
def Format.fieldsLegal (fmt : Format) (w : Word) : Prop :=
  rsv1Field w = 0 ∧ rsv2Field w = 0 ∧ (fmt.takesIdx = false → idxField w = 0) ∧
    (fmt.takesFast = false → fastField w = false)

/-- R57: the mask clears IDX where the format takes it and keeps it elsewhere. -/
theorem idxField_and_mask_eq_zero_iff (fmt : Format) (w : Word) :
    idxField (w &&& fmt.mask) = 0 ↔ (fmt.takesIdx = false → idxField w = 0) := by
  have hlt : idxField w < 2 ^ 4 := BitVec.isLt _
  rw [idxField_and, idxField_mask]
  cases fmt.takesIdx with
  | false => rw [if_neg nofun, Nat.and_two_pow_sub_one_of_lt_two_pow hlt]; simp
  | true => simp

/-- R57: the mask clears F where the format takes it and keeps it elsewhere. -/
theorem fastField_and_mask_eq_false_iff (fmt : Format) (w : Word) :
    fastField (w &&& fmt.mask) = false ↔ (fmt.takesFast = false → fastField w = false) := by
  rw [fastField_and, fastField_mask]
  cases fmt.takesFast <;> simp

/-- R57: `w & mask = match` says that the OP is the row's and that the other fields are legal for its format. -/
theorem and_mask_eq_setWidth_iff (fmt : Format) (op : Byte) (w : Word) :
    w &&& fmt.mask = op.setWidth 32 ↔ op = opField w ∧ fmt.fieldsLegal w := by
  rw [word_eq_iff_fields, opField_setWidth, idxField_setWidth, rsv1Field_setWidth, fastField_setWidth,
    rsv2Field_setWidth, idxField_and_mask_eq_zero_iff, fastField_and_mask_eq_false_iff, opField_and, opField_mask,
    rsv1Field_and, rsv1Field_mask, rsv2Field_and, rsv2Field_mask, BitVec.and_allOnes, BitVec.and_allOnes,
    BitVec.and_allOnes, Format.fieldsLegal]
  tauto

theorem pattern_eq_op {row : OpcodeRow} (h : row ∈ opcodeRows) : row.pattern = (opField row.pattern).setWidth 32 := by
  revert row
  decide

theorem mask_eq_format_mask {row : OpcodeRow} (h : row ∈ opcodeRows) : row.mask = row.format.mask := by
  revert row
  decide

theorem hits_iff {row : OpcodeRow} (h : row ∈ opcodeRows) (w : Word) :
    row.hits w = true ↔ opField row.pattern = opField w ∧ row.format.fieldsLegal w := by
  rw [OpcodeRow.hits, beq_iff_eq, mask_eq_format_mask h, pattern_eq_op h, and_mask_eq_setWidth_iff, opField_setWidth]

/-- R57: no two rows have the same OP. -/
theorem row_eq_of_op_eq {a b : OpcodeRow} (ha : a ∈ opcodeRows) (hb : b ∈ opcodeRows)
    (h : opField a.pattern = opField b.pattern) : a = b :=
  List.inj_on_of_nodup_map (f := fun row => opField row.pattern) (by decide) ha hb h

/-- R57: no two rows have the same mnemonic. -/
theorem row_eq_of_mnemonic_eq {a b : OpcodeRow} (ha : a ∈ opcodeRows) (hb : b ∈ opcodeRows)
    (h : a.mnemonic = b.mnemonic) : a = b :=
  List.inj_on_of_nodup_map (f := OpcodeRow.mnemonic) (by decide) ha hb h

/-! ### Rows and the decoder -/

/-- R57: an OP the decoder assigns is the OP of a row. -/
theorem exists_row_of_opcode {op : Byte} {idx : Nat} {f : Bool} {p : Format × Instr} (h : opcode op idx f = some p) :
    ∃ row ∈ opcodeRows, opField row.pattern = op := by
  simp only [← BitVec.toNat_inj]
  unfold opcode at h
  split at h
  case h_20 => exact absurd h nofun
  all_goals
    rename_i hop
    rw [hop]
    decide

/-- R57: the decoder gives a row's OP the row's format and mnemonic. -/
theorem opcode_of_row {row : OpcodeRow} (h : row ∈ opcodeRows) (idx : Nat) (f : Bool) :
    ∃ i, opcode (opField row.pattern) idx f = some (row.format, i) ∧ i.mnemonic = row.mnemonic := by
  fin_cases h <;> exact ⟨_, rfl, rfl⟩

/-- R54 to R58: a word decodes when the table assigns its OP and the fields are legal for the format. -/
theorem decode_eq_ok_iff {w : Word} {i : Instr} : decode w = .ok i ↔
    ∃ fmt : Format, opcode (opField w) (idxField w) (fastField w) = some (fmt, i) ∧ fmt.fieldsLegal w := by
  cases hop : opcode (opField w) (idxField w) (fastField w) with
  | none => simp [decode, hop]
  | some p =>
    obtain ⟨fmt, j⟩ := p
    simp only [decode, hop, Option.some.injEq, Prod.mk.injEq, Format.fieldsLegal]
    split_ifs with hrsv hidx hfast
    · exact iff_of_false nofun fun ⟨_, _, hrsv1, hrsv2, _⟩ => hrsv.elim (· hrsv1) (· hrsv2)
    · exact iff_of_false nofun fun ⟨_, ⟨hfmt, _⟩, _, _, hzero, _⟩ => hidx.2 (hzero (hfmt ▸ hidx.1))
    · exact iff_of_false nofun fun ⟨_, ⟨hfmt, _⟩, _, _, _, hfalse⟩ =>
        Bool.false_ne_true ((hfalse (hfmt ▸ hfast.1)).symm.trans hfast.2)
    · simp_all

end Sys2Proof
end

section
/-! The opcode map decides every word: the rows, the decoder and the list of illegal words (30_encoding.md R57, R58). -/

namespace Sys2Proof

/-- R57: a legal word matches the row of its OP, which has the command's mnemonic. -/
theorem exists_row_of_decode {w : Word} {i : Instr} (h : decode w = .ok i) :
    ∃ row ∈ opcodeRows, row.mnemonic = i.mnemonic ∧ row.hits w = true := by
  obtain ⟨fmt, hop, hlegal⟩ := decode_eq_ok_iff.mp h
  obtain ⟨row, hrow, hpat⟩ := exists_row_of_opcode hop
  obtain ⟨j, hj, hmn⟩ := opcode_of_row hrow (idxField w) (fastField w)
  rw [hpat, hop] at hj
  obtain ⟨rfl, rfl⟩ := Prod.mk.inj (Option.some.inj hj)
  exact ⟨row, hrow, hmn.symm, (hits_iff hrow w).mpr ⟨hpat, hlegal⟩⟩

/-- R57: a word that matches a row decodes to a command of the row's mnemonic. -/
theorem decode_of_hits {row : OpcodeRow} (hrow : row ∈ opcodeRows) {w : Word} (h : row.hits w = true) :
    ∃ i, decode w = .ok i ∧ i.mnemonic = row.mnemonic := by
  obtain ⟨hpat, hlegal⟩ := (hits_iff hrow w).mp h
  obtain ⟨i, hi, hmn⟩ := opcode_of_row hrow (idxField w) (fastField w)
  exact ⟨i, decode_eq_ok_iff.mpr ⟨_, hpat ▸ hi, hlegal⟩, hmn⟩

/-- R57: rows that match one word have its OP, so they are one row. -/
theorem row_eq_of_hits {a b : OpcodeRow} (ha : a ∈ opcodeRows) (hb : b ∈ opcodeRows) {w : Word}
    (hwa : a.hits w = true) (hwb : b.hits w = true) : a = b :=
  row_eq_of_op_eq ha hb (((hits_iff ha w).mp hwa).1.trans ((hits_iff hb w).mp hwb).1.symm)

/-- Settles O2: matching a row is having its OP and legal fields, which is what the decoder checks, and an OP has one
row; the map's own columns are compared with the table by evaluation. -/
theorem opcodeMapDecidesEveryWord : Obligations.OpcodeMapDecidesEveryWord := by
  unfold Obligations.OpcodeMapDecidesEveryWord
  refine ⟨fun w i hdec => ?_, fun w row hrow hhit => decode_of_hits hrow hhit,
    fun row hrow => ⟨pattern_eq_op hrow, mask_eq_format_mask hrow⟩, rfl⟩
  obtain ⟨row, hrow, hmn, hhit⟩ := exists_row_of_decode hdec
  exact ⟨row, hrow, hmn, hhit, fun other hother h => row_eq_of_hits hother hrow h hhit⟩

end Sys2Proof

namespace Sys2Proof.Machine

/-- R58: the listed OP ranges are the values no row has. -/
theorem opListed_iff (op : Byte) :
    ((0x03 ≤ op ∧ op ≤ 0x0F) ∨ (0x18 ≤ op ∧ op ≤ 0x1F) ∨ (0x24 ≤ op ∧ op ≤ 0x2F) ∨ (0x33 ≤ op ∧ op ≤ 0x3F) ∨
      0x41 ≤ op) ↔ ¬ ∃ row ∈ opcodeRows, opField row.pattern = op := by
  revert op
  decide

/-- The OPs of the rows whose format does not take an operand. -/
theorem mem_opsNotTaking_iff (takes : Format → Bool) (op : Byte) :
    op ∈ (opcodeRows.filter fun row => !takes row.format).map (fun row => opField row.pattern) ↔
      ∃ row ∈ opcodeRows, opField row.pattern = op ∧ takes row.format = false := by
  simp only [List.mem_map, List.mem_filter, Bool.not_eq_true']
  exact exists_congr fun row => and_assoc.trans (and_congr_right' and_comm)

/-- R58: the OPs listed for a nonzero IDX are those of the rows whose format takes none. -/
theorem mem_opsWithoutIdx_iff (op : Byte) :
    op ∈ ([0x00, 0x01, 0x02, 0x10, 0x11, 0x12, 0x13, 0x14, 0x15, 0x30, 0x31] : List Byte) ↔
      ∃ row ∈ opcodeRows, opField row.pattern = op ∧ row.format.takesIdx = false :=
  mem_opsNotTaking_iff Format.takesIdx op

/-- R58: the OPs listed for F = 1 are those of the rows whose format takes no F. -/
theorem mem_opsWithoutFast_iff (op : Byte) :
    op ∈ ([0x00, 0x01, 0x02, 0x10, 0x11, 0x12, 0x13, 0x14, 0x15, 0x16, 0x17, 0x21, 0x22, 0x23, 0x31, 0x40] : List Byte) ↔
      ∃ row ∈ opcodeRows, opField row.pattern = op ∧ row.format.takesFast = false :=
  mem_opsNotTaking_iff Format.takesFast op

/-- R58's list, with each list of OPs read as the rows it stands for. -/
theorem listedIllegal_iff (w : Word) : ListedIllegal w ↔
    (¬ ∃ row ∈ opcodeRows, opField row.pattern = opField w) ∨ rsv1Field w ≠ 0 ∨ rsv2Field w ≠ 0 ∨
    (idxField w ≠ 0 ∧ ∃ row ∈ opcodeRows, opField row.pattern = opField w ∧ row.format.takesIdx = false) ∨
    (fastField w = true ∧ ∃ row ∈ opcodeRows, opField row.pattern = opField w ∧ row.format.takesFast = false) := by
  rw [← opListed_iff, ← mem_opsWithoutIdx_iff, ← mem_opsWithoutFast_iff]
  simp only [ListedIllegal, or_assoc]

theorem hits_eq_false_of_listedIllegal {w : Word} (h : ListedIllegal w) {row : OpcodeRow} (hrow : row ∈ opcodeRows) :
    row.hits w = false := by
  refine Bool.eq_false_iff.mpr fun hhit => ?_
  obtain ⟨hop, hrsv1, hrsv2, hidx, hfast⟩ := (hits_iff hrow w).mp hhit
  have same_row {other : OpcodeRow} (hother : other ∈ opcodeRows) (ho : opField other.pattern = opField w) :
      other = row := row_eq_of_op_eq hother hrow (ho.trans hop.symm)
  obtain hnone | hne | hne | ⟨hne, other, hother, ho, hfmt⟩ | ⟨htrue, other, hother, ho, hfmt⟩ := (listedIllegal_iff w).mp h
  · exact hnone ⟨row, hrow, hop⟩
  · exact hne hrsv1
  · exact hne hrsv2
  · exact hne (hidx (same_row hother ho ▸ hfmt))
  · exact Bool.false_ne_true ((hfast (same_row hother ho ▸ hfmt)).symm.trans htrue)

theorem exists_hits_of_not_listedIllegal {w : Word} (h : ¬ ListedIllegal w) : ∃ row ∈ opcodeRows, row.hits w = true := by
  rw [listedIllegal_iff] at h
  push Not at h
  obtain ⟨⟨row, hrow, hop⟩, hrsv1, hrsv2, hidx, hfast⟩ := h
  refine ⟨row, hrow, (hits_iff hrow w).mpr ⟨hop, hrsv1, hrsv2, fun hfmt => ?_, fun hfmt => ?_⟩⟩
  · exact by_contra fun hne => hidx hne row hrow hop hfmt
  · exact Bool.eq_false_iff.mpr fun htrue => hfast htrue row hrow hop hfmt

/-- R58, R59: a word that matches no row is an illegal command, whatever the state. -/
theorem execute_of_no_row {w : Word} (h : ∀ row ∈ opcodeRows, row.hits w = false) (s : State) :
    execute w s = .next { s with err := .illegalCommand } := by
  cases hdec : decode w with
  | error e => rw [execute, hdec, raiseCmdError_eq]
  | ok i =>
    obtain ⟨row, hrow, -, hhit⟩ := exists_row_of_decode hdec
    exact absurd hhit (by rw [h row hrow]; nofun)

/-- Settles O3: the list and the rows exclude each other and leave no word out, and a word of no row does not decode. -/
theorem illegalWordsRaiseIllegalCommand : Obligations.IllegalWordsRaiseIllegalCommand := by
  unfold Obligations.IllegalWordsRaiseIllegalCommand
  refine ⟨fun w => ⟨fun hnone => ?_, fun h row hrow => hits_eq_false_of_listedIllegal h hrow⟩, fun w s h => ?_⟩
  · by_contra hlist
    obtain ⟨row, hrow, hhit⟩ := exists_hits_of_not_listedIllegal hlist
    exact Bool.false_ne_true ((hnone row hrow).symm.trans hhit)
  · rw [memWrite_command]
    exact execute_of_no_row (fun row hrow => hits_eq_false_of_listedIllegal h hrow) s

end Sys2Proof.Machine
end

section
/-! The assembler (30_encoding.md R60). -/

namespace Sys2Proof

/-- R60: what the assembler accepts of a line for a row: `.F` only where the format takes F, an IDX exactly where it takes
IDX, and no IDX above 15. -/
def OpcodeRow.accepts (row : OpcodeRow) (l : AsmLine) : Prop :=
  (l.fast = true → row.format.takesFast = true) ∧ l.idx.isSome = row.format.takesIdx ∧ l.idx.getD 0 ≤ 15

theorem assembleRow_eq_some_iff {row : OpcodeRow} {l : AsmLine} {w : Word} : assembleRow row l = some w ↔
    row.accepts l ∧ commandWord (opField row.pattern) (l.idx.getD 0) l.fast = w := by
  unfold assembleRow OpcodeRow.accepts
  by_cases hfast : l.fast = true ∧ row.format.takesFast = false
  · rw [if_pos hfast]
    exact iff_of_false nofun fun ⟨⟨htakes, _⟩, _⟩ => Bool.false_ne_true (hfast.2.symm.trans (htakes hfast.1))
  · have htakes : l.fast = true → row.format.takesFast = true := by simpa using hfast
    rw [if_neg hfast]
    cases l.idx with
    | none => cases row.format.takesIdx <;> simp [iff_true_intro htakes]
    | some k => cases row.format.takesIdx <;> simp [iff_true_intro htakes]

/-- R60: a line assembles by the one row of its mnemonic. -/
theorem assemble_eq_some_iff {l : AsmLine} {w : Word} : assemble l = some w ↔
    ∃ row ∈ opcodeRows, row.mnemonic = l.mnemonic ∧ row.accepts l ∧
      commandWord (opField row.pattern) (l.idx.getD 0) l.fast = w := by
  unfold assemble
  cases hfind : opcodeRows.find? (fun row => row.mnemonic == l.mnemonic) with
  | none =>
    refine iff_of_false nofun fun ⟨row, hrow, hmn, _⟩ => ?_
    exact absurd hmn (by simpa using List.find?_eq_none.mp hfind row hrow)
  | some row =>
    have hrow := List.mem_of_find?_eq_some hfind
    have hmn : row.mnemonic = l.mnemonic := by simpa using List.find?_some hfind
    rw [assembleRow_eq_some_iff]
    refine ⟨fun h => ⟨row, hrow, hmn, h⟩, fun ⟨other, hother, hmn', h⟩ => ?_⟩
    exact row_eq_of_mnemonic_eq hother hrow (hmn'.trans hmn.symm) ▸ h

theorem wellFormed_iff_asm_idx_le (i : Instr) : i.wellFormed = true ↔ i.asm.idx.getD 0 ≤ 15 := by
  cases i <;> simp [Instr.wellFormed, Instr.asm, idxFits]

theorem asm_mnemonic (i : Instr) : i.asm.mnemonic = i.mnemonic := by cases i <;> rfl

/-- R55, R60: a command's line has the operands its row's format takes, and its encoding is built from them. -/
theorem exists_row_of_asm (i : Instr) : ∃ row ∈ opcodeRows, row.mnemonic = i.mnemonic ∧
    (i.asm.fast = true → row.format.takesFast = true) ∧ i.asm.idx.isSome = row.format.takesIdx ∧
    encode i = commandWord (opField row.pattern) (i.asm.idx.getD 0) i.asm.fast := by
  cases i <;>
    simp [opcodeRows, opcodeRowsNoOperand, opcodeRowsKeyed, Instr.mnemonic, Instr.asm, Format.takesFast,
      Format.takesIdx, encode, opField]

/-- R60: the assembler refuses `.F` on a row whose format takes no F. -/
theorem assemble_fast_eq_none {row : OpcodeRow} (hrow : row ∈ opcodeRows) (hfmt : row.format.takesFast = false)
    (idx : Option Nat) : assemble ⟨row.mnemonic, true, idx⟩ = none := by
  refine Option.eq_none_iff_forall_ne_some.mpr fun w h => ?_
  obtain ⟨other, hother, hmn, ⟨hfast, -⟩, -⟩ := assemble_eq_some_iff.mp h
  obtain rfl := row_eq_of_mnemonic_eq hother hrow hmn
  exact Bool.false_ne_true (hfmt.symm.trans (hfast rfl))

/-- R60: the assembler refuses an IDX above 15. -/
theorem assemble_idx_above_eq_none (m : String) (f : Bool) {k : Nat} (hk : k > 15) : assemble ⟨m, f, some k⟩ = none := by
  refine Option.eq_none_iff_forall_ne_some.mpr fun w h => ?_
  obtain ⟨row, -, -, ⟨-, -, hle⟩, -⟩ := assemble_eq_some_iff.mp h
  exact absurd hle (Nat.not_le.mpr hk)

theorem assemble_asm {i : Instr} (h : i.wellFormed = true) : assemble i.asm = some (encode i) := by
  obtain ⟨row, hrow, hmn, hfast, hidx, henc⟩ := exists_row_of_asm i
  exact assemble_eq_some_iff.mpr
    ⟨row, hrow, hmn.trans (asm_mnemonic i).symm, ⟨hfast, hidx, (wellFormed_iff_asm_idx_le i).mp h⟩, henc.symm⟩

/-- Settles O6: what a line assembles to is characterised by its row, and the clauses are read off; the texts of the
examples are computed. -/
theorem assemblerWritesTheEncoding : Obligations.AssemblerWritesTheEncoding := by
  unfold Obligations.AssemblerWritesTheEncoding
  refine ⟨fun i => assemble_asm, fun l w h => ?_, fun m f k => assemble_idx_above_eq_none m f, fun row hrow hfmt => ?_, ?_⟩
  · obtain ⟨row, hrow, hmn, -, hw⟩ := assemble_eq_some_iff.mp h
    exact ⟨row, hrow, hmn, hw.symm⟩
  · exact assemble_fast_eq_none hrow (by obtain hfmt | hfmt := hfmt <;> rw [hfmt] <;> rfl)
  · decide

end Sys2Proof
end

section
/-! Multiplication by the constants of the two matrices, and MixColumns and its inverse (40_field_tables.md R63 to R65;
41_cipher_core.md R73, R74). -/

namespace Sys2Proof

/-! ### Cancelling XOR -/

theorem byte_xor_left_comm (x y z : Byte) : x ^^^ (y ^^^ z) = y ^^^ (x ^^^ z) := by
  rw [← xor_assoc, xor_comm x y, xor_assoc]

theorem byte_xor_xor_xor_cancel (x y u : Byte) : (x ^^^ u) ^^^ (y ^^^ u) = x ^^^ y := by
  rw [xor_comm y u, ← xor_assoc, xor_cancel_right]

/-! ### The field product is linear in its first factor -/

theorem xtime_xor (a b : Byte) : xtime (a ^^^ b) = xtime a ^^^ xtime b := by
  unfold xtime
  rw [BitVec.shiftLeft_xor_distrib, BitVec.getLsbD_xor]
  cases a.getLsbD 7 <;> cases b.getLsbD 7 <;> simp [xor_assoc, BitVec.xor_comm]

/-- R64: the loop over a sum of pairs answers the sum of what it answers over each. -/
theorem foldl_gmulTurn_xor (b : Byte) (l : List Nat) (x y : Byte × Byte) :
    l.foldl (gmulTurn b) (x.1 ^^^ y.1, x.2 ^^^ y.2) =
      ((l.foldl (gmulTurn b) x).1 ^^^ (l.foldl (gmulTurn b) y).1,
        (l.foldl (gmulTurn b) x).2 ^^^ (l.foldl (gmulTurn b) y).2) := by
  induction l generalizing x y with
  | nil => rfl
  | cons i l ih =>
    rw [List.foldl_cons, List.foldl_cons, List.foldl_cons, ← ih]
    congr 1
    simp only [gmulTurn, xtime_xor]
    split <;> simp [xor_assoc, byte_xor_left_comm]

/-- R64: the loop commutes with multiplication by `x`. -/
theorem foldl_gmulTurn_xtime (b : Byte) (l : List Nat) (x : Byte × Byte) :
    l.foldl (gmulTurn b) (xtime x.1, xtime x.2) =
      (xtime (l.foldl (gmulTurn b) x).1, xtime (l.foldl (gmulTurn b) x).2) := by
  induction l generalizing x with
  | nil => rfl
  | cons i l ih =>
    rw [List.foldl_cons, List.foldl_cons, ← ih]
    congr 1
    simp only [gmulTurn]
    split <;> simp [xtime_xor]

theorem gmul_xor_left (a c b : Byte) : gmul (a ^^^ c) b = gmul a b ^^^ gmul c b := by
  have hloop := congrArg Prod.fst (foldl_gmulTurn_xor b (List.range 8) (0x00, a) (0x00, c))
  rwa [BitVec.xor_self] at hloop

theorem gmul_xtime_left (a b : Byte) : gmul (xtime a) b = xtime (gmul a b) := by
  have hloop := congrArg Prod.fst (foldl_gmulTurn_xtime b (List.range 8) (0x00, a))
  rwa [show xtime 0x00 = 0x00 by decide] at hloop

theorem gmul_one_left : ∀ b : Byte, gmul 0x01 b = b := by decide +kernel

/-! ### The constants of the matrices as polynomials in `x` -/

theorem gmul_two (b : Byte) : gmul 0x02 b = xtime b := by
  rw [show (0x02 : Byte) = xtime 0x01 by decide, gmul_xtime_left, gmul_one_left]

theorem gmul_four (b : Byte) : gmul 0x04 b = xtime (xtime b) := by
  rw [show (0x04 : Byte) = xtime 0x02 by decide, gmul_xtime_left, gmul_two]

theorem gmul_eight (b : Byte) : gmul 0x08 b = xtime (xtime (xtime b)) := by
  rw [show (0x08 : Byte) = xtime 0x04 by decide, gmul_xtime_left, gmul_four]

theorem gmul_three (b : Byte) : gmul 0x03 b = xtime b ^^^ b := by
  rw [show (0x03 : Byte) = 0x02 ^^^ 0x01 by decide, gmul_xor_left, gmul_two, gmul_one_left]

theorem gmul_nine (b : Byte) : gmul 0x09 b = xtime (xtime (xtime b)) ^^^ b := by
  rw [show (0x09 : Byte) = 0x08 ^^^ 0x01 by decide, gmul_xor_left, gmul_eight, gmul_one_left]

theorem gmul_eleven (b : Byte) : gmul 0x0B b = xtime (xtime (xtime b)) ^^^ (xtime b ^^^ b) := by
  rw [show (0x0B : Byte) = 0x08 ^^^ 0x03 by decide, gmul_xor_left, gmul_eight, gmul_three]

theorem gmul_thirteen (b : Byte) : gmul 0x0D b = xtime (xtime (xtime b)) ^^^ (xtime (xtime b) ^^^ b) := by
  rw [show (0x0D : Byte) = 0x08 ^^^ (0x04 ^^^ 0x01) by decide, gmul_xor_left, gmul_xor_left, gmul_eight, gmul_four,
    gmul_one_left]

theorem gmul_fourteen (b : Byte) : gmul 0x0E b = xtime (xtime (xtime b)) ^^^ (xtime (xtime b) ^^^ xtime b) := by
  rw [show (0x0E : Byte) = 0x08 ^^^ (0x04 ^^^ 0x02) by decide, gmul_xor_left, gmul_xor_left, gmul_eight, gmul_four,
    gmul_two]

/-- R65: the two printed tables that R73 uses. -/
theorem tableEntry_mul2Rows_mul3Rows :
    ∀ a : Byte, tableEntry mul2Rows a = gmul 0x02 a ∧ tableEntry mul3Rows a = gmul 0x03 a := by decide +kernel

/-! ### The matrices on one column -/

/-- The sum of the bytes of a column, each parity of rows by itself. -/
def Column.sum (a : Column) : Byte := (a.r0 ^^^ a.r2) ^^^ (a.r1 ^^^ a.r3)

/-- R73: a mixed byte is the byte, the sum of the column, and `x` times the sum of the byte and the next one. -/
theorem mixColumn_eq (a : Column) : mixColumn a =
    ⟨a.r0 ^^^ a.sum ^^^ xtime (a.r0 ^^^ a.r1), a.r1 ^^^ a.sum ^^^ xtime (a.r1 ^^^ a.r2),
      a.r2 ^^^ a.sum ^^^ xtime (a.r2 ^^^ a.r3), a.r3 ^^^ a.sum ^^^ xtime (a.r3 ^^^ a.r0)⟩ := by
  simp only [mixColumn, mulTable, gmul_two, gmul_three, xtime_xor, Column.sum, Column.mk.injEq]
  refine ⟨?_, ?_, ?_, ?_⟩ <;> simp only [xor_assoc, BitVec.xor_comm, byte_xor_left_comm, xor_cancel_left]

/-- R73: mixing adds `x` times the sum of the column to the sum of each parity. -/
theorem mixColumn_parity_sums (a : Column) :
    (mixColumn a).r0 ^^^ (mixColumn a).r2 = a.r0 ^^^ a.r2 ^^^ xtime a.sum ∧
      (mixColumn a).r1 ^^^ (mixColumn a).r3 = a.r1 ^^^ a.r3 ^^^ xtime a.sum := by
  simp only [mixColumn_eq, Column.sum, xtime_xor]
  constructor <;> simp only [xor_assoc, BitVec.xor_comm, byte_xor_left_comm, xor_cancel_left]

/-- R73: mixing keeps the sum of a column. -/
theorem mixColumn_sum (a : Column) : (mixColumn a).sum = a.sum := by
  obtain ⟨heven, hodd⟩ := mixColumn_parity_sums a
  rw [Column.sum, heven, hodd, byte_xor_xor_xor_cancel, ← Column.sum]

/-- R73: the square of the matrix adds to each byte 4 times the sum of its parity. -/
theorem mixColumn_mixColumn (a : Column) : mixColumn (mixColumn a) =
    ⟨a.r0 ^^^ xtime (xtime (a.r0 ^^^ a.r2)), a.r1 ^^^ xtime (xtime (a.r1 ^^^ a.r3)),
      a.r2 ^^^ xtime (xtime (a.r0 ^^^ a.r2)), a.r3 ^^^ xtime (xtime (a.r1 ^^^ a.r3))⟩ := by
  rw [mixColumn_eq (mixColumn a), mixColumn_sum]
  simp only [mixColumn_eq a, xtime_xor, Column.mk.injEq]
  refine ⟨?_, ?_, ?_, ?_⟩ <;>
    simp only [xor_assoc, BitVec.xor_comm, byte_xor_left_comm, xor_cancel_left, LawfulXor.xor_self, xor_zero]

/-- R73: the matrix has order four: the square keeps the sums of the parities, so what it adds cancels the second time. -/
theorem mixColumn_iterate_four (a : Column) : mixColumn^[4] a = a := by
  change mixColumn (mixColumn (mixColumn (mixColumn a))) = a
  simp only [mixColumn_mixColumn, byte_xor_xor_xor_cancel, xor_cancel_right]

/-- R74: an unmixed byte is the mixed one and 4 times the sum of its parity after mixing. -/
theorem invMixColumn_eq (a : Column) : invMixColumn a =
    ⟨(mixColumn a).r0 ^^^ xtime (xtime (a.r0 ^^^ a.r2 ^^^ xtime a.sum)),
      (mixColumn a).r1 ^^^ xtime (xtime (a.r1 ^^^ a.r3 ^^^ xtime a.sum)),
      (mixColumn a).r2 ^^^ xtime (xtime (a.r0 ^^^ a.r2 ^^^ xtime a.sum)),
      (mixColumn a).r3 ^^^ xtime (xtime (a.r1 ^^^ a.r3 ^^^ xtime a.sum))⟩ := by
  simp only [invMixColumn, mixColumn, mulTable, gmul_two, gmul_three, gmul_nine, gmul_eleven, gmul_thirteen,
    gmul_fourteen, Column.sum, xtime_xor, Column.mk.injEq]
  refine ⟨?_, ?_, ?_, ?_⟩ <;> ac_rfl

/-- R74: the matrix is the third power of R73's. -/
theorem invMixColumn_eq_iterate_three (a : Column) : invMixColumn a = mixColumn^[3] a := by
  obtain ⟨heven, hodd⟩ := mixColumn_parity_sums a
  change invMixColumn a = mixColumn (mixColumn (mixColumn a))
  rw [mixColumn_mixColumn, heven, hodd, invMixColumn_eq]

@[simp] theorem invMixColumn_mixColumn (a : Column) : invMixColumn (mixColumn a) = a := by
  rw [invMixColumn_eq_iterate_three, ← Function.iterate_succ_apply mixColumn, mixColumn_iterate_four]

@[simp] theorem mixColumn_invMixColumn (a : Column) : mixColumn (invMixColumn a) = a := by
  rw [invMixColumn_eq_iterate_three, ← Function.iterate_succ_apply' mixColumn, mixColumn_iterate_four]

/-! ### The matrices on the columns of a block -/

theorem mixColumns_at (s : Block) (r c : Fin 4) : (mixColumns s).at r c = (mixColumn (s.col c)).get r := by
  rw [mixColumns, Block.at, Block.col_mapColumns]

theorem invMixColumns_at (s : Block) (r c : Fin 4) : (invMixColumns s).at r c = (invMixColumn (s.col c)).get r := by
  rw [invMixColumns, Block.at, Block.col_mapColumns]

/-- Settles O14: the bytes are the rows of the mixed column, and the matrices are inverse because R73's has order four
and R74's is its third power. -/
theorem mixColumnsMultipliesByTheMatrix : Obligations.MixColumnsMultipliesByTheMatrix := by
  unfold Obligations.MixColumnsMultipliesByTheMatrix
  refine ⟨fun s c => ?_, fun s c => ?_, fun a => ⟨invMixColumn_mixColumn a, mixColumn_invMixColumn a⟩,
    tableEntry_mul2Rows_mul3Rows⟩
  · simp only [mixColumns_at]
    exact ⟨rfl, rfl, rfl, rfl⟩
  · simp only [invMixColumns_at]
    exact ⟨rfl, rfl, rfl, rfl⟩

end Sys2Proof
end

section
/-! What the commands of opcode group 0x1_ share: their illegal forms, running one command after another, and the rule of
a command over one round key (30_encoding.md R58; 41_cipher_core.md section 2). -/

namespace Sys2Proof.Machine

/-- R58: a word with a row's OP that does not match the row matches no row. -/
theorem illegalForms_of_row {row : OpcodeRow} (hrow : row ∈ opcodeRows) : IllegalForms row.pattern row.mask := by
  intro w s hop hmiss
  refine execute_of_no_row (fun other hother => Bool.eq_false_iff.mpr fun hhit => ?_) s
  obtain ⟨hopOther, -⟩ := (hits_iff hother w).mp hhit
  obtain rfl := row_eq_of_op_eq hother hrow (hopOther.trans hop)
  exact hmiss (beq_iff_eq.mp hhit)

/-- R48: a command that completes is followed by the rest of the list. -/
theorem execAll_cons {i : Instr} {rest : List Instr} {s t : State} (h : exec i s = .next t) :
    execAll (i :: rest) s = execAll rest t := by
  rw [execAll, h]

/-- R48: two commands that complete, one after the other. -/
theorem execAll_pair {i j : Instr} {s t u : State} (hi : exec i s = .next t) (hj : exec j t = .next u) :
    execAll [i, j] s = .next u := by
  rw [execAll_cons hi, execAll_cons hj, execAll]

/-! ### Commands over one round key -/

section
variable {f : Block → Block → Block} {r : Nat} {s : State}

theorem withRoundKey_of_le (hkv : s.keystate.kv = true) (hr : r ≤ roundCount s) :
    withRoundKey f r s = .next { s with data := f s.data (roundKey s r), err := .ok } := by
  rw [withRoundKey, requireKey_of_loaded hkv, requireIndex_of_le hr, commitData_eq]

theorem withInvRoundKey_of_le (hkv : s.keystate.kv = true) (hr : r ≤ roundCount s) :
    withInvRoundKey f r s = .next { s with data := f s.data (invRoundKey s r), err := .ok } := by
  rw [withInvRoundKey, requireKey_of_loaded hkv, requireIndex_of_le hr, commitData_eq]

end

section
variable {word : Nat → Word} {mk : Nat → Instr} {f : Block → Block → Block}

/-- R110, R111: the two checks before the effect are the rule's errors in their order, whichever file the key is from. -/
theorem keyedCommandRule_of_checks {file : State → Vector Block 15} {keyOf : State → Nat → Block}
    (hdec : ∀ r, r ≤ 15 → decode (word r) = .ok (mk r))
    (hexec : ∀ r s, exec (mk r) s = requireKey s (requireIndex r s (commitData (f s.data (keyOf s r)) s)))
    (hkey : ∀ s (r : Fin 15), keyOf s r.val = (file s)[r]) : KeyedCommandRule word mk f file := by
  refine ⟨hdec, fun r s hkv hr => ?_, fun r s hkv => ?_, fun r s hkv hr => ?_⟩
  · rw [hexec, requireKey_of_loaded hkv, requireIndex_of_le hr, commitData_eq, hkey]
  · rw [hexec, requireKey_of_empty hkv]
  · rw [hexec, requireKey_of_loaded hkv, requireIndex_of_gt hr]

theorem keyedCommandRule_of_withRoundKey (hdec : ∀ r, r ≤ 15 → decode (word r) = .ok (mk r))
    (hexec : ∀ r s, exec (mk r) s = withRoundKey f r s) : KeyedCommandRule word mk f State.rk :=
  keyedCommandRule_of_checks hdec hexec fun _ r => roundKey_of_lt r.isLt

theorem keyedCommandRule_of_withInvRoundKey (hdec : ∀ r, r ≤ 15 → decode (word r) = .ok (mk r))
    (hexec : ∀ r s, exec (mk r) s = withInvRoundKey f r s) : KeyedCommandRule word mk f State.irk :=
  keyedCommandRule_of_checks hdec hexec fun _ r => invRoundKey_of_lt r.isLt

end

end Sys2Proof.Machine
end

section
/-! SUBBYTES and INVSUBBYTES (41_cipher_core.md R71, R77, R78). -/

namespace Sys2Proof

@[simp] theorem Block.byte_map (f : Byte → Byte) (s : Block) (i : Fin 16) : (s.map f).byte i = f (s.byte i) :=
  Block.at_map f s _ _

theorem subBytes_byte (s : Block) (i : Fin 16) : (subBytes s).byte i = sbox (s.byte i) := Block.byte_map sbox s i

theorem invSubBytes_byte (s : Block) (i : Fin 16) : (invSubBytes s).byte i = invSbox (s.byte i) :=
  Block.byte_map invSbox s i

/-- R66: the inverse table undoes the table, at each of the 256 bytes. -/
theorem invSbox_sbox : ∀ a : Byte, invSbox (sbox a) = a := by decide +kernel

theorem invSubBytes_subBytes (s : Block) : invSubBytes (subBytes s) = s :=
  Block.ext_at fun r c => by rw [invSubBytes, subBytes, Block.at_map, Block.at_map, invSbox_sbox]

namespace Machine

theorem exec_subbytes (s : State) : exec .subbytes s = .next { s with data := subBytes s.data, err := .ok } := rfl

theorem exec_invsubbytes (s : State) : exec .invsubbytes s = .next { s with data := invSubBytes s.data, err := .ok } := rfl

/-- Settles O28: the clauses about bytes are `subBytes_byte`, once or twice. -/
theorem subbytesAppliesTheSbox : Obligations.SubbytesAppliesTheSbox := by
  unfold Obligations.SubbytesAppliesTheSbox
  refine ⟨by decide, exec_subbytes,
    illegalForms_of_row (row := ⟨"SUBBYTES", .n, 0x00000010, 0xFFFFFFFF⟩) (by decide), fun s hzero => ?_, fun s => ?_,
    by decide +kernel⟩
  · refine ⟨_, exec_subbytes s, fun i => ?_⟩
    rw [subBytes_byte, hzero, zeroBlock_byte]
    decide
  · refine ⟨_, execAll_pair (exec_subbytes s) (exec_subbytes _), fun i => ?_⟩
    rw [subBytes_byte, subBytes_byte]

/-- Settles O29: the round trip is `invSubBytes_subBytes`, from the two tables being inverse at every byte. -/
theorem invsubbytesAppliesTheInverseSbox : Obligations.InvsubbytesAppliesTheInverseSbox := by
  unfold Obligations.InvsubbytesAppliesTheInverseSbox
  refine ⟨by decide, exec_invsubbytes,
    illegalForms_of_row (row := ⟨"INVSUBBYTES", .n, 0x00000011, 0xFFFFFFFF⟩) (by decide), fun s => ?_, fun s hzero => ?_,
    by decide +kernel⟩
  · rw [execAll_pair (exec_subbytes s) (exec_invsubbytes _), invSubBytes_subBytes]
  · refine ⟨_, exec_invsubbytes s, fun i => ?_⟩
    rw [invSubBytes_byte, hzero, zeroBlock_byte]
    decide

end Machine

end Sys2Proof
end

section
/-! ADDRK and ADDIRK, and the two round-key files of one key (41_cipher_core.md R75, R83, R84; 42_key_schedule.md R87). -/

namespace Sys2Proof

/-- R75: adding a round key twice leaves the block. -/
theorem addRoundKey_addRoundKey (s k : Block) : addRoundKey (addRoundKey s k) k = s :=
  Block.ext_at fun r c => by rw [addRoundKey, addRoundKey, Block.at_ofRows, Block.at_ofRows, xor_cancel_right]

/-- R87: the entries of the inverse schedule. -/
theorem inverseSchedule_getD (rks : List Block) {nr j : Nat} (h : j ≤ nr) :
    (inverseSchedule rks nr).getD j Machine.zeroBlock = inverseKeyOf rks nr j := by
  rw [inverseSchedule, List.getD_eq_getElem _ _ (by simpa using Nat.lt_succ_of_le h), List.getElem_map,
    List.getElem_range]

theorem KeySize.rounds_lt (ks : KeySize) : ks.rounds < 15 := by cases ks <;> decide

namespace Machine

theorem nr_loaded (ks : KeySize) : (KeyState.loaded ks).nr.toNat = ks.rounds := by cases ks <;> rfl

/-- R26: NR of a legal KEYSTATE is below 15. -/
theorem nr_lt_of_legal {k : KeyState} (h : k.legal) : k.nr.toNat < 15 := by
  obtain rfl | rfl | rfl | rfl := h <;> decide

/-- R26, R27: where KV = 1 the state holds some key's schedules. -/
theorem exists_holdsKey_of_loaded {s : State} (h : s.instanceInv) (hkv : s.keystate.kv = true) :
    ∃ ks key, s.holdsKey ks key := by
  obtain ⟨hempty, -⟩ | hkey := h
  · exact absurd hkv (by rw [hempty]; decide)
  · exact hkey

section
variable {s : State} {ks : KeySize} {key : List Byte} {r : Nat}

theorem nr_of_holdsKey (h : s.holdsKey ks key) : s.keystate.nr.toNat = ks.rounds := by
  obtain ⟨-, hstate, -⟩ := h
  rw [hstate, nr_loaded]

theorem roundKey_of_holdsKey (h : s.holdsKey ks key) (hr : r ≤ ks.rounds) :
    roundKey s r = (keyExpansion ks key).getD r zeroBlock := by
  have hlt : r < 15 := hr.trans_lt ks.rounds_lt
  obtain ⟨-, -, hfiles⟩ := h
  rw [roundKey_of_lt hlt]
  exact (hfiles ⟨r, hlt⟩).1

/-- R87: the inverse file of a loaded key holds the forward one reversed, mixed between the ends. -/
theorem invRoundKey_of_holdsKey (h : s.holdsKey ks key) (hr : r ≤ ks.rounds) :
    invRoundKey s r = if r = 0 ∨ r = ks.rounds then roundKey s (ks.rounds - r)
      else invMixColumns (roundKey s (ks.rounds - r)) := by
  have hlt : r < 15 := hr.trans_lt ks.rounds_lt
  rw [roundKey_of_holdsKey h (Nat.sub_le _ _)]
  obtain ⟨-, -, hfiles⟩ := h
  rw [invRoundKey_of_lt hlt]
  exact (hfiles ⟨r, hlt⟩).2.trans (inverseSchedule_getD _ hr)

end

theorem exec_addrk_of_le {r : Nat} {s : State} (hkv : s.keystate.kv = true) (hr : r ≤ roundCount s) :
    exec (.addrk r) s = .next { s with data := addRoundKey s.data (roundKey s r), err := .ok } :=
  withRoundKey_of_le hkv hr

theorem exec_addirk_of_le {r : Nat} {s : State} (hkv : s.keystate.kv = true) (hr : r ≤ roundCount s) :
    exec (.addirk r) s = .next { s with data := addRoundKey s.data (invRoundKey s r), err := .ok } :=
  withInvRoundKey_of_le hkv hr

/-- R83, R84: ADDIRK r and ADDRK q are one operation when they add the same key. -/
theorem exec_addirk_eq_exec_addrk {s : State} {r q : Nat} (hkv : s.keystate.kv = true) (hr : r ≤ roundCount s)
    (hq : q ≤ roundCount s) (hkey : invRoundKey s r = roundKey s q) : exec (.addirk r) s = exec (.addrk q) s := by
  rw [exec_addirk_of_le hkv hr, exec_addrk_of_le hkv hq, hkey]

theorem addrk_rule :
    KeyedCommandRule (fun r => 0x00000016 ||| (BitVec.ofNat 32 r <<< 8)) .addrk addRoundKey State.rk :=
  keyedCommandRule_of_withRoundKey (by decide) fun _ _ => rfl

theorem addirk_rule :
    KeyedCommandRule (fun r => 0x00000017 ||| (BitVec.ofNat 32 r <<< 8)) .addirk addRoundKey State.irk :=
  keyedCommandRule_of_withInvRoundKey (by decide) fun _ _ => rfl

/-- Settles O34: index 15 is above NR in every legal KEYSTATE, and adding the same round key twice cancels. -/
theorem addrkXorsTheForwardRoundKey : Obligations.AddrkXorsTheForwardRoundKey := by
  unfold Obligations.AddrkXorsTheForwardRoundKey
  refine ⟨addrk_rule, illegalForms_of_row (row := ⟨"ADDRK", .i, 0x00000016, 0xFFFFF0FF⟩) (by decide),
    fun s hlegal hkv => ?_, fun r s hkv hr => ?_, by decide +kernel⟩
  · obtain ⟨-, -, -, hbad⟩ := addrk_rule
    exact hbad 15 s hkv (nr_lt_of_legal hlegal)
  · have hsame (b : Block) : roundKey { s with data := b, err := .ok } r = roundKey s r := rfl
    rw [execAll_pair (exec_addrk_of_le hkv hr) (exec_addrk_of_le hkv hr), hsame, addRoundKey_addRoundKey]

/-- Settles O35: the inverse file of a loaded key is the forward one reversed, so ADDIRK at an end adds the key that ADDRK
adds at the other end. -/
theorem addirkXorsTheInverseRoundKey : Obligations.AddirkXorsTheInverseRoundKey := by
  unfold Obligations.AddirkXorsTheInverseRoundKey
  refine ⟨addirk_rule, illegalForms_of_row (row := ⟨"ADDIRK", .i, 0x00000017, 0xFFFFF0FF⟩) (by decide),
    fun s hinv hkv => ?_, by decide +kernel⟩
  obtain ⟨ks, key, hkey⟩ := exists_holdsKey_of_loaded hinv hkv
  have hcount : roundCount s = ks.rounds := nr_of_holdsKey hkey
  rw [nr_of_holdsKey hkey]
  refine ⟨exec_addirk_eq_exec_addrk hkv (Nat.zero_le _) hcount.ge ?_,
    exec_addirk_eq_exec_addrk hkv hcount.ge (Nat.zero_le _) ?_, fun r hpos hlt => ?_⟩
  · rw [invRoundKey_of_holdsKey hkey (Nat.zero_le _), if_pos (.inl rfl), Nat.sub_zero]
  · rw [invRoundKey_of_holdsKey hkey le_rfl, if_pos (.inr rfl), Nat.sub_self]
  · rw [invRoundKey_of_holdsKey hkey hlt.le, if_neg (by omega)]

end Machine

end Sys2Proof
end

section
/-! The round keys of the spec's example key, evaluated once (42_key_schedule.md R86; 95_test_vectors.md L2-K1).

The `sleep` below says nothing about the model. Where the whole text is compiled as one file, some forty threads wait here
for the kernel to finish the evaluations above, as many as the check's memory limit allows. A definition is elaborated
before Lean goes on; this one first waits until no proof above is still to be started, and its evaluation then waits for
the kernel, so that the proofs below need no further thread. -/

namespace Sys2Proof.Machine

/-- R86: the eleven round keys of the example key, with the evaluation of the expansion that gives them. -/
def exampleSchedule : { rks : List Block // keyExpansion .aes128 exampleKey = rks } :=
  ⟨[0x2b7e151628aed2a6abf7158809cf4f3c, 0xa0fafe1788542cb123a339392a6c7605, 0xf2c295f27a96b9435935807a7359f67f,
    0x3d80477d4716fe3e1e237e446d7a883b, 0xef44a541a8525b7fb671253bdb0bad00, 0xd4d1c6f87c839d87caf2b8bc11f915bc,
    0x6d88a37a110b3efddbf98641ca0093fd, 0x4e54f70e5f5fc9f384a64fb24ea6dc4f, 0xead27321b58dbad2312bf5607f8d292f,
    0xac7766f319fadc2128d12941575c006e, 0xd014f9a8c9ee2589e13f0cc8b6630ca6].map Block.ofHex,
    by sleep 20000 <;> [decide +kernel]⟩

theorem keyExpansion_exampleKey : keyExpansion .aes128 exampleKey = exampleSchedule.val := exampleSchedule.property

end Sys2Proof.Machine
end

section
/-! The operations of the key schedule on the bytes of a word (42_key_schedule.md R85). -/

namespace Sys2Proof

/-- R16: a rotation by 8 bits as two shifts. -/
theorem rotl8_eq_shifts (w : Word) : rotl8 w = (w <<< 8) ||| (w >>> 24) := rfl

theorem extractLsb'_rotl8_high (w : Word) {k : Nat} (hk : k ≤ 16) :
    (rotl8 w).extractLsb' (k + 8) 8 = w.extractLsb' k 8 := by
  ext i hi
  rw [rotl8_eq_shifts, BitVec.getElem_extractLsb', BitVec.getElem_extractLsb', BitVec.getLsbD_or,
    BitVec.getLsbD_shiftLeft, BitVec.getLsbD_ushiftRight, BitVec.getLsbD_of_ge w (24 + (k + 8 + i)) (by omega),
    Bool.or_false, decide_eq_true (show k + 8 + i < 32 by omega), decide_eq_false (show ¬ k + 8 + i < 8 by omega),
    show k + 8 + i - 8 = k + i by omega]
  rfl

theorem extractLsb'_rotl8_low (w : Word) : (rotl8 w).extractLsb' 0 8 = w.extractLsb' 24 8 := by
  ext i hi
  rw [rotl8_eq_shifts, BitVec.getElem_extractLsb', BitVec.getElem_extractLsb', BitVec.getLsbD_or,
    BitVec.getLsbD_shiftLeft, BitVec.getLsbD_ushiftRight, Nat.zero_add, decide_eq_true hi, Bool.not_true,
    Bool.and_false, Bool.false_and, Bool.false_or]

/-- R85: rotating a word moves every byte one place toward the first. -/
theorem ofWord_rotWord (w : Word) : Column.ofWord (rotWord w) =
    ⟨(Column.ofWord w).r1, (Column.ofWord w).r2, (Column.ofWord w).r3, (Column.ofWord w).r0⟩ := by
  simp only [Column.ofWord, rotWord, extractLsb'_rotl8_low, Column.mk.injEq, and_true]
  exact ⟨extractLsb'_rotl8_high w (k := 16) (by decide), extractLsb'_rotl8_high w (k := 8) (by decide),
    extractLsb'_rotl8_high w (k := 0) (by decide)⟩

theorem rotWord_toWord (a0 a1 a2 a3 : Byte) :
    rotWord (Column.toWord ⟨a0, a1, a2, a3⟩) = Column.toWord ⟨a1, a2, a3, a0⟩ := by
  rw [← Column.toWord_ofWord (rotWord _), ofWord_rotWord, Column.ofWord_toWord]

theorem subWord_toWord (a0 a1 a2 a3 : Byte) :
    subWord (Column.toWord ⟨a0, a1, a2, a3⟩) = Column.toWord ⟨sbox a0, sbox a1, sbox a2, sbox a3⟩ := by
  rw [subWord, Column.ofWord_toWord]

/-- R70, R85: the round constant is the word of the column whose first byte it is. -/
theorem rconWord_eq_toWord (i : Nat) : rconWord i = Column.toWord ⟨rcon i, 0, 0, 0⟩ := by
  simp only [rconWord, Column.toWord, BitVec.ofNat_eq_ofNat, BitVec.reduceSetWidth, BitVec.reduceHShiftLeft,
    BitVec.or_zero]

/-- Settles O16: every operation is written on the packed column, which splits into the same bytes again. -/
theorem keyScheduleWordOperations : Obligations.KeyScheduleWordOperations := by
  unfold Obligations.KeyScheduleWordOperations
  refine ⟨fun a0 a1 a2 a3 => ⟨rotWord_toWord a0 a1 a2 a3, subWord_toWord a0 a1 a2 a3⟩,
    fun w => ⟨rfl, rotl8_eq_shifts w⟩, fun i => ⟨rfl, ?_⟩⟩
  rw [rconWord_eq_toWord, Column.ofWord_toWord]

end Sys2Proof
end

section
/-! The key expansion: the key's own words, the recurrence, and the packing into round keys (42_key_schedule.md R86). -/

namespace Sys2Proof

open Machine

/-! ### The words of the key -/

/-- A list that the first branch of `keyWordsOf` does not match has no whole word left. -/
theorem length_lt_four_of_short :
    ∀ {key : List Byte}, (∀ a b c d rest, key = a :: b :: c :: d :: rest → False) → key.length < 4
  | [], _ | [_], _ | [_, _], _ | [_, _, _], _ => by simp
  | a :: b :: c :: d :: rest, hshort => (hshort a b c d rest rfl).elim

theorem keyWordsOf_length (key : List Byte) : (keyWordsOf key).length = key.length / 4 := by
  induction key using keyWordsOf.induct with
  | case1 a b c d rest ih =>
    rw [keyWordsOf, List.length_cons, ih]
    exact (Nat.add_div_right rest.length (by decide)).symm
  | case2 key hshort =>
    rw [keyWordsOf.eq_2 key hshort, Nat.div_eq_of_lt (length_lt_four_of_short hshort), List.length_nil]

/-- R86: word `i` of the key packs the key bytes from `4i` on. -/
theorem keyWordsOf_getD (key : List Byte) (i : Nat) (h : 4 * i + 3 < key.length) : (keyWordsOf key).getD i 0 =
    Column.toWord ⟨key.getD (4 * i) 0, key.getD (4 * i + 1) 0, key.getD (4 * i + 2) 0, key.getD (4 * i + 3) 0⟩ := by
  induction key using keyWordsOf.induct generalizing i with
  | case1 a b c d rest ih =>
    cases i with
    | zero => rfl
    | succ i => exact ih i (by simp only [List.length_cons] at h; omega)
  | case2 key hshort =>
    have hlt := length_lt_four_of_short hshort
    omega

/-! ### The recurrence -/

section
variable {n : Nat} {keyWords : List Word}

@[simp] theorem expandNewestFirst_length (n : Nat) (keyWords : List Word) (k : Nat) :
    (expandNewestFirst n keyWords k).length = keyWords.length + k := by
  induction k with
  | zero => simp [expandNewestFirst]
  | succ k ih => rw [expandNewestFirst, List.length_cons, ih, Nat.add_assoc]

/-- R86: expanding further puts words before those already there, newest first. -/
theorem expandNewestFirst_suffix {k m : Nat} (h : k ≤ m) :
    expandNewestFirst n keyWords k <:+ expandNewestFirst n keyWords m := by
  induction h with
  | refl => exact List.suffix_rfl
  | step _ ih => exact ih.trans (List.suffix_cons _ _)

/-- R86: word `i` of the sequence is the same however far the expansion goes on. -/
theorem expandNewestFirst_reverse_getD {k m i : Nat} (hkm : k ≤ m) (hi : i < keyWords.length + k) :
    (expandNewestFirst n keyWords m).reverse.getD i 0 = (expandNewestFirst n keyWords k).reverse.getD i 0 := by
  obtain ⟨later, hlater⟩ := List.reverse_prefix.mpr (expandNewestFirst_suffix (n := n) (keyWords := keyWords) hkm)
  rw [← hlater, List.getD_append _ _ _ _ (by simpa using hi)]

/-- R86: the first words are the key's. -/
theorem expandNewestFirst_reverse_getD_key {m i : Nat} (hi : i < keyWords.length) :
    (expandNewestFirst n keyWords m).reverse.getD i 0 = keyWords.getD i 0 := by
  rw [expandNewestFirst_reverse_getD (Nat.zero_le m) hi, expandNewestFirst, List.reverse_reverse]

/-- R86: the word after the first `keyWords.length + k` is the one made of them. -/
theorem expandNewestFirst_reverse_getD_next {k m : Nat} (hkm : k < m) :
    (expandNewestFirst n keyWords m).reverse.getD (keyWords.length + k) 0 =
      nextWord n (n + k) (expandNewestFirst n keyWords k) := by
  rw [expandNewestFirst_reverse_getD (k := k + 1) hkm (by omega), expandNewestFirst, List.reverse_cons,
    List.getD_append_right _ _ _ _ (by simp)]
  simp

/-- R86: the words newest first and the words in order, each counted from its own end. -/
theorem expandNewestFirst_getD {k j i : Nat} (h : j + i + 1 = keyWords.length + k) :
    (expandNewestFirst n keyWords k).getD j 0 = (expandNewestFirst n keyWords k).reverse.getD i 0 := by
  have hlen := expandNewestFirst_length n keyWords k
  rw [List.getD_reverse i (by rw [hlen, ← h]; exact Nat.lt_succ_of_le (Nat.le_add_left i j)), hlen, ← h,
    Nat.add_sub_cancel, Nat.add_sub_cancel]

/-- R86: every word after the key's is the word `n` places back plus what the word before it contributes. -/
theorem expandNewestFirst_recurrence {m k : Nat} (hpos : 0 < n) (hlen : keyWords.length = n) (hkm : k < m) :
    (expandNewestFirst n keyWords m).reverse.getD (n + k) 0 =
      (expandNewestFirst n keyWords m).reverse.getD k 0 ^^^
        scheduleTemp n (n + k) ((expandNewestFirst n keyWords m).reverse.getD (n + k - 1) 0) := by
  have hback {j i : Nat} (h : j + i + 1 = n + k) : (expandNewestFirst n keyWords k).getD j 0 =
      (expandNewestFirst n keyWords m).reverse.getD i 0 := by
    rw [expandNewestFirst_getD (hlen ▸ h), expandNewestFirst_reverse_getD hkm.le (by omega)]
  have hnext := expandNewestFirst_reverse_getD_next (n := n) (keyWords := keyWords) hkm
  rw [hlen, nextWord, hback (i := k) (by omega), hback (i := n + k - 1) (by omega)] at hnext
  exact hnext

end

/-! ### The schedule of a key -/

theorem Column.get_consecutive (bytes : List Byte) (m : Nat) : ∀ r : Fin 4,
    Column.get ⟨bytes.getD m 0, bytes.getD (m + 1) 0, bytes.getD (m + 2) 0, bytes.getD (m + 3) 0⟩ r =
      bytes.getD (m + r.val) 0
  | 0 | 1 | 2 | 3 => rfl

theorem KeySize.four_le_words (ks : KeySize) : 4 ≤ ks.words := by cases ks <;> decide

theorem KeySize.words_le (ks : KeySize) : ks.words ≤ 4 * (ks.rounds + 1) := by cases ks <;> decide

section
variable {ks : KeySize} {key : List Byte}

theorem keyWordsOf_length_of_key (hlen : key.length = 4 * ks.words) : (keyWordsOf key).length = ks.words := by
  rw [keyWordsOf_length]
  omega

theorem expandedWords_length (hlen : key.length = 4 * ks.words) :
    (expandedWords ks key).length = 4 * (ks.rounds + 1) := by
  have hwords := ks.words_le
  rw [expandedWords, List.length_reverse, expandNewestFirst_length, keyWordsOf_length_of_key hlen]
  omega

/-- R86: the first words are the key bytes, four to a word. -/
theorem scheduleWord_of_lt (hlen : key.length = 4 * ks.words) {i : Nat} (hi : i < ks.words) :
    scheduleWord ks key i = Column.toWord
      ⟨key.getD (4 * i) 0, key.getD (4 * i + 1) 0, key.getD (4 * i + 2) 0, key.getD (4 * i + 3) 0⟩ := by
  rw [scheduleWord, expandedWords, expandNewestFirst_reverse_getD_key (by rwa [keyWordsOf_length_of_key hlen]),
    keyWordsOf_getD key i (by omega)]

theorem scheduleWord_recurrence (hlen : key.length = 4 * ks.words) {i : Nat} (hi : ks.words ≤ i)
    (hend : i < 4 * (ks.rounds + 1)) : scheduleWord ks key i =
      scheduleWord ks key (i - ks.words) ^^^ scheduleTemp ks.words i (scheduleWord ks key (i - 1)) := by
  obtain ⟨k, rfl⟩ := Nat.exists_eq_add_of_le hi
  rw [Nat.add_sub_cancel_left]
  exact expandNewestFirst_recurrence (Nat.lt_of_lt_of_le (by decide) ks.four_le_words) (keyWordsOf_length_of_key hlen)
    (Nat.lt_sub_of_add_lt (Nat.add_comm _ k ▸ hend))

theorem keyExpansion_length (ks : KeySize) (key : List Byte) : (keyExpansion ks key).length = ks.rounds + 1 := by
  rw [keyExpansion, List.length_map, List.length_range]

theorem keyExpansion_getD {r : Nat} (hr : r ≤ ks.rounds) :
    (keyExpansion ks key).getD r zeroBlock = roundKeyOf (expandedWords ks key) r := by
  rw [keyExpansion, List.getD_eq_getElem _ _ (by simpa using Nat.lt_succ_of_le hr), List.getElem_map,
    List.getElem_range]

/-- R86: round key `r` packs the words from `4r` on. -/
theorem keyExpansion_getD_word {r : Nat} (hr : r ≤ ks.rounds) (j : Fin 4) :
    ((keyExpansion ks key).getD r zeroBlock).word j = scheduleWord ks key (4 * r + j.val) := by
  rw [keyExpansion_getD hr, roundKeyOf, Block.word_ofWords, scheduleWord]

/-- R86: column `j` of round key 0 is word `j` of the key. -/
theorem keyExpansion_getD_zero_col (hlen : key.length = 4 * ks.words) (j : Fin 4) :
    ((keyExpansion ks key).getD 0 zeroBlock).col j =
      ⟨key.getD (4 * j) 0, key.getD (4 * j + 1) 0, key.getD (4 * j + 2) 0, key.getD (4 * j + 3) 0⟩ := by
  rw [← Column.ofWord_word, keyExpansion_getD_word (Nat.zero_le _), Nat.mul_zero, Nat.zero_add,
    scheduleWord_of_lt hlen (j.isLt.trans_le ks.four_le_words), Column.ofWord_toWord]

/-- R86: round key 0 is the first 16 bytes of the key. -/
theorem keyExpansion_getD_zero_byte (hlen : key.length = 4 * ks.words) (k : Fin 16) :
    ((keyExpansion ks key).getD 0 zeroBlock).byte k = key.getD k.val 0 := by
  let r : Fin 4 := ⟨k.val % 4, Nat.mod_lt _ (by decide)⟩
  let j : Fin 4 := ⟨k.val / 4, Nat.div_lt_of_lt_mul k.isLt⟩
  have hk : k.val = 4 * j.val + r.val := (Nat.div_add_mod k.val 4).symm
  rw [Block.byte_of_index _ r j k hk, Block.at, keyExpansion_getD_zero_col hlen, Column.get_consecutive, ← hk]

end

/-- R86: the example's first word after the key is word 0 of its round key 1. -/
theorem scheduleWord_exampleKey_four : scheduleWord .aes128 exampleKey 4 = 0xa0fafe17 := by
  have hword := keyExpansion_getD_word (ks := .aes128) (key := exampleKey) (r := 1) (by decide) 0
  rw [keyExpansion_exampleKey] at hword
  exact hword.symm.trans (by decide)

/-- Settles O17: a word of the sequence does not change as the expansion goes on, so each is read off in the turn that
makes it; round keys pack the sequence in fours. -/
theorem keyExpansionFollowsTheRecurrence : Obligations.KeyExpansionFollowsTheRecurrence := by
  unfold Obligations.KeyExpansionFollowsTheRecurrence
  refine ⟨fun ks key hlen => ⟨expandedWords_length hlen, fun i hi => scheduleWord_of_lt hlen hi,
    fun i hi hend => scheduleWord_recurrence hlen hi hend, keyExpansion_length ks key,
    fun r j hr => keyExpansion_getD_word hr j, keyExpansion_getD_zero_byte hlen⟩, rfl,
    scheduleWord_exampleKey_four, ?_⟩
  rw [keyExpansion_exampleKey]
  rfl

end Sys2Proof
end

section
/-! The inverse schedule (42_key_schedule.md R87). -/

namespace Sys2Proof

theorem inverseSchedule_length (rks : List Block) (nr : Nat) : (inverseSchedule rks nr).length = nr + 1 := by
  rw [inverseSchedule, List.length_map, List.length_range]

/-- R87: the ends of the reversed sequence are not mixed. -/
theorem inverseKeyOf_end {rks : List Block} {nr j : Nat} (h : j = 0 ∨ j = nr) :
    inverseKeyOf rks nr j = rks.getD (nr - j) Machine.zeroBlock := if_pos h

theorem inverseKeyOf_interior {rks : List Block} {nr j : Nat} (h : ¬(j = 0 ∨ j = nr)) :
    inverseKeyOf rks nr j = invMixColumns (rks.getD (nr - j) Machine.zeroBlock) := if_neg h

theorem inverseSchedule_getD_zero (rks : List Block) (nr : Nat) :
    (inverseSchedule rks nr).getD 0 Machine.zeroBlock = rks.getD nr Machine.zeroBlock := by
  rw [inverseSchedule_getD rks (Nat.zero_le nr), inverseKeyOf_end (.inl rfl), Nat.sub_zero]

theorem inverseSchedule_getD_last (rks : List Block) (nr : Nat) :
    (inverseSchedule rks nr).getD nr Machine.zeroBlock = rks.getD 0 Machine.zeroBlock := by
  rw [inverseSchedule_getD rks le_rfl, inverseKeyOf_end (.inr rfl), Nat.sub_self]

/-- Settles O18: every entry is `inverseKeyOf` of its index, mixed or not. -/
theorem inverseScheduleReversesAndMixes : Obligations.InverseScheduleReversesAndMixes := by
  unfold Obligations.InverseScheduleReversesAndMixes
  refine ⟨fun rks nr _ => ⟨inverseSchedule_length rks nr, fun j hj => inverseSchedule_getD rks hj,
    inverseSchedule_getD_zero rks nr, inverseSchedule_getD_last rks nr⟩, ?_, ?_⟩
  · rw [inverseSchedule_getD_zero, Machine.keyExpansion_exampleKey]
    rfl
  · rw [inverseSchedule_getD _ (by decide), inverseKeyOf_interior (by decide), Machine.keyExpansion_exampleKey]
    simp only [invMixColumns, Block.mapColumns, invMixColumn_eq, mixColumn_eq]
    decide

end Sys2Proof
end

section
/-! LOADKEY and CLEARKEY (42_key_schedule.md R89 to R92). -/

namespace Sys2Proof

/-! ### The key sizes -/

theorem keySizeOf_words (ks : KeySize) : keySizeOf (BitVec.ofNat 32 (4 * ks.words)) = some ks := by cases ks <;> rfl

theorem keySizeOf_eq_none {keylen : Word} (h16 : keylen ≠ 16) (h24 : keylen ≠ 24) (h32 : keylen ≠ 32) :
    keySizeOf keylen = none := by
  rw [keySizeOf, if_neg h16, if_neg h24, if_neg h32]

theorem KeySize.words_le_eight (ks : KeySize) : ks.words ≤ 8 := by cases ks <;> decide

namespace Machine

/-! ### The staged key -/

theorem bytesOfWord_getD (w : Word) (k : Fin 4) : (bytesOfWord w).getD k.val 0 = w.extractLsb' (24 - 8 * k.val) 8 := by
  fin_cases k <;> rfl

theorem bytesOfWord_length (w : Word) : (bytesOfWord w).length = 4 := rfl

theorem flatMap_bytesOfWord_length (ws : List Word) : (ws.flatMap bytesOfWord).length = 4 * ws.length := by
  induction ws with
  | nil => rfl
  | cons w ws ih =>
    rw [List.flatMap_cons, List.length_append, bytesOfWord_length, ih, List.length_cons, Nat.mul_succ, Nat.add_comm]

/-- R24: byte `k` of word `j` is byte `4j + k` of the words' bytes. -/
theorem flatMap_bytesOfWord_getD (ws : List Word) {j : Nat} (k : Fin 4) (hj : j < ws.length) :
    (ws.flatMap bytesOfWord).getD (4 * j + k.val) 0 = (bytesOfWord ws[j]).getD k.val 0 := by
  induction ws generalizing j with
  | nil => exact absurd hj (Nat.not_lt_zero j)
  | cons w ws ih =>
    rw [List.flatMap_cons]
    cases j with
    | zero =>
      rw [Nat.mul_zero, Nat.zero_add, List.getD_append _ _ _ _ k.isLt, List.getElem_cons_zero]
    | succ j =>
      have hbyte : 4 * (j + 1) + k.val = (bytesOfWord w).length + (4 * j + k.val) := by
        rw [Nat.mul_succ, Nat.add_right_comm, Nat.add_comm]
        rfl
      rw [hbyte, List.getD_append_right _ _ _ _ (Nat.le_add_right _ _), Nat.add_sub_cancel_left,
        List.getElem_cons_succ, ih (Nat.lt_of_succ_lt_succ hj)]

theorem stagedKey_length {n : Nat} (hn : n ≤ 8) (s : State) : (stagedKey n s).length = 4 * n := by
  rw [stagedKey, flatMap_bytesOfWord_length, List.length_take, Vector.length_toList, Nat.min_eq_left hn]

/-- R24, R89: byte `k` of KEYj is byte `4j + k` of the staged key. -/
theorem stagedKey_getD {n : Nat} {j : Fin 8} (hj : j.val < n) (k : Fin 4) (s : State) :
    (stagedKey n s).getD (4 * j.val + k.val) 0 = s.key[j].extractLsb' (24 - 8 * k.val) 8 := by
  have hlen : j.val < (s.key.toList.take n).length := by
    rw [List.length_take, Vector.length_toList]
    exact Nat.lt_min.mpr ⟨hj, j.isLt⟩
  rw [stagedKey, flatMap_bytesOfWord_getD _ k hlen, List.getElem_take, Vector.getElem_toList, bytesOfWord_getD]
  rfl

/-! ### The round-key files -/

theorem roundKeyFile_getElem (schedule : List Block) (r : Fin 15) :
    (roundKeyFile schedule)[r] = schedule.getD r.val zeroBlock := by
  rw [roundKeyFile, Fin.getElem_fin, Vector.getElem_ofFn]

/-- R89: the file of a schedule of `nr + 1` blocks is zero above `nr`. -/
theorem roundKeyFile_getElem_of_length {schedule : List Block} {nr : Nat} (hlen : schedule.length = nr + 1)
    (r : Fin 15) :
    (roundKeyFile schedule)[r] = if r.val ≤ nr then schedule.getD r.val zeroBlock else zeroBlock := by
  rw [roundKeyFile_getElem]
  split
  · rfl
  · exact List.getD_eq_default _ _ (by omega)

/-! ### The commands -/

section
variable {s : State}

theorem exec_loadkey_of_size {ks : KeySize} (h : keySizeOf s.keylen = some ks) :
    exec .loadkey s = .next { constructInstance ks (stagedKey ks.words s) s with err := .ok } := by
  simp only [exec, execLoadkey, h, complete_eq]

/-- R91: no instance is left by a LOADKEY whose KEYLEN is no key size. -/
theorem exec_loadkey_of_illegal_length (h16 : s.keylen ≠ 16) (h24 : s.keylen ≠ 24) (h32 : s.keylen ≠ 32) :
    exec .loadkey s = .next { destroyInstance s with err := .invalidKeySize } := by
  rw [exec, execLoadkey, keySizeOf_eq_none h16 h24 h32, raiseCmdError_eq]

theorem exec_clearkey (s : State) : exec .clearkey s = .next { destroyInstance s with err := .ok } := rfl

/-- R110, R111: every key-consuming command checks for an instance before anything else. -/
theorem exec_of_no_key {i : Instr} (hi : consumesKey i = true) (hkv : s.keystate.kv = false) :
    exec i s = .next { s with err := .noKey } := by
  cases i with
  | addrk | addirk | round | finalround | invround | invfinalround | encrypt | decrypt | encryptn =>
    exact requireKey_of_empty hkv
  | nop | loadkey | clearkey | subbytes | invsubbytes | shiftrows | invshiftrows | mixcolumns | invmixcolumns
  | prevrk =>
    exact absurd hi Bool.false_ne_true

theorem file_eq_replicate {file : Vector Block 15} (h : ∀ r : Fin 15, file[r] = zeroBlock) :
    file = Vector.replicate 15 zeroBlock :=
  Vector.ext fun r hr => (h ⟨r, hr⟩).trans (Vector.getElem_replicate hr).symm

/-- R27: with no instance RK and IRK are zero already, so there is nothing to destroy. -/
theorem destroyInstance_of_empty (hinv : s.instanceInv) (hkv : s.keystate.kv = false) : destroyInstance s = s := by
  obtain ⟨hempty, hzero⟩ | ⟨ks, key, -, hloaded, -⟩ := hinv
  · obtain ⟨data, keyRegs, keylen, keystate, rk, irk, err, pending, reads⟩ := s
    obtain rfl : rk = Vector.replicate 15 zeroBlock := file_eq_replicate fun r => (hzero r).1
    obtain rfl : irk = Vector.replicate 15 zeroBlock := file_eq_replicate fun r => (hzero r).2
    obtain rfl : keystate = KeyState.empty := hempty
    rfl
  · rw [hloaded] at hkv
    exact absurd hkv Bool.true_eq_false_eq_False

end

/-- Settles O25: the key is the staged one, and a file built of a schedule holds it up to its length. -/
theorem loadkeyConstructsTheInstance : Obligations.LoadkeyConstructsTheInstance := by
  unfold Obligations.LoadkeyConstructsTheInstance
  refine ⟨by decide, fun ks s hlen => ?_, rfl, fun s h16 h24 h32 => exec_loadkey_of_illegal_length h16 h24 h32,
    illegalForms_of_row (row := ⟨"LOADKEY", .n, 0x00000001, 0xFFFFFFFF⟩) (by decide), fun s v j => ?_,
    ⟨_, exec_loadkey_of_size (ks := .aes128) rfl, by decide, ?_⟩⟩
  · have hexec := exec_loadkey_of_size (s := s) (hlen ▸ keySizeOf_words ks)
    refine ⟨stagedKey ks.words s, _, _, hexec, stagedKey_length ks.words_le_eight s,
      fun j k hj => stagedKey_getD hj k s, fun r => ⟨?_, ?_⟩⟩
    · exact roundKeyFile_getElem_of_length (keyExpansion_length ks _) r
    · exact roundKeyFile_getElem_of_length (inverseSchedule_length _ ks.rounds) r
  · exact ⟨memWrite_offset (a := .key j) nofun v s, memWrite_offset (a := .keylen) nofun v s⟩
  · have hkey : stagedKey KeySize.aes128.words (stagedExample 0) = exampleKey := by decide
    simp only [constructInstance_rk, hkey, keyExpansion_exampleKey]
    exact roundKeyFile_getElem _ 10

/-- Settles O26: the instance is destroyed, so the commands that need one find none. -/
theorem loadkeyWithIllegalLengthDestroysTheInstance : Obligations.LoadkeyWithIllegalLengthDestroysTheInstance := by
  unfold Obligations.LoadkeyWithIllegalLengthDestroysTheInstance
  intro s h16 h24 h32
  exact ⟨_, exec_loadkey_of_illegal_length h16 h24 h32, rfl, fun i hi => exec_of_no_key hi rfl⟩

/-- Settles O27: CLEARKEY destroys the instance, which changes nothing where the invariant says there is none. -/
theorem clearkeyDestroysTheInstance : Obligations.ClearkeyDestroysTheInstance := by
  unfold Obligations.ClearkeyDestroysTheInstance
  refine ⟨by decide, exec_clearkey,
    illegalForms_of_row (row := ⟨"CLEARKEY", .n, 0x00000002, 0xFFFFFFFF⟩) (by decide), fun s hinv hkv => ?_⟩
  rw [exec_clearkey, destroyInstance_of_empty hinv hkv]

end Machine

end Sys2Proof
end

section
/-! The laws of the transforms that make an inverse round undo a round (41_cipher_core.md R76). -/

namespace Sys2Proof

theorem invShiftRows_shiftRows (s : Block) : invShiftRows (shiftRows s) = s :=
  Block.ext_at fun r c => by rw [invShiftRows, shiftRows, Block.at_ofRows, Block.at_ofRows, sub_add_cancel]

/-- R76: a substitution acts on each byte alone, so it commutes with moving the bytes. -/
theorem invSubBytes_shiftRows (s : Block) : invSubBytes (shiftRows s) = shiftRows (invSubBytes s) :=
  Block.ext_at fun r c => by
    rw [invSubBytes, shiftRows, shiftRows, invSubBytes, Block.at_map, Block.at_ofRows, Block.at_ofRows, Block.at_map]

/-- R76: the byte transforms of an inverse round undo those of a round, in the order R96 runs them. -/
theorem invShiftRows_invSubBytes_shiftRows_subBytes (s : Block) :
    invShiftRows (invSubBytes (shiftRows (subBytes s))) = s := by
  rw [invSubBytes_shiftRows, invShiftRows_shiftRows, invSubBytes_subBytes]

/-- The bytewise sum of two columns. -/
def Column.xor (a b : Column) : Column := ⟨a.r0 ^^^ b.r0, a.r1 ^^^ b.r1, a.r2 ^^^ b.r2, a.r3 ^^^ b.r3⟩

@[simp] theorem addRoundKey_col (s k : Block) (c : Fin 4) : (addRoundKey s k).col c = (s.col c).xor (k.col c) := by
  fin_cases c <;> rfl

theorem mixColumn_xor (a b : Column) : mixColumn (a.xor b) = (mixColumn a).xor (mixColumn b) := by
  simp only [mixColumn_eq, Column.xor, Column.sum, xtime_xor, Column.mk.injEq]
  refine ⟨?_, ?_, ?_, ?_⟩ <;> ac_rfl

theorem invMixColumn_xor (a b : Column) : invMixColumn (a.xor b) = (invMixColumn a).xor (invMixColumn b) := by
  simp only [invMixColumn_eq_iterate_three, Function.iterate_succ_apply, Function.iterate_zero_apply, mixColumn_xor]

/-- R76: InvMixColumns is linear, which lets the inverse schedule take its keys through it in advance. -/
theorem invMixColumns_addRoundKey (s k : Block) :
    invMixColumns (addRoundKey s k) = addRoundKey (invMixColumns s) (invMixColumns k) :=
  Block.ext_col fun c => by
    rw [addRoundKey_col, invMixColumns, invMixColumns, invMixColumns, Block.col_mapColumns, Block.col_mapColumns,
      Block.col_mapColumns, addRoundKey_col, invMixColumn_xor]

theorem invMixColumns_mixColumns (s : Block) : invMixColumns (mixColumns s) = s :=
  Block.ext_col fun c => by
    rw [invMixColumns, mixColumns, Block.col_mapColumns, Block.col_mapColumns, invMixColumn_mixColumn]

end Sys2Proof
end

section
/-! The T-tables, and the full round by table lookup (43_cipher_driver.md R99 to R101). -/

namespace Sys2Proof

theorem rotr8_rotl8 (w : Word) : rotr8 (rotl8 w) = w := by
  ext i hi
  simp only [rotr8, rotl8, BitVec.getElem_rotateRight, BitVec.getElem_rotateLeft]
  split <;> rename_i hlow
  · rw [dif_neg (by omega)]
    congr 1
    omega
  · rw [dif_pos (by omega)]
    congr 1
    omega

/-- R99: rotating a packed column right moves every byte one place toward the last. -/
theorem rotr8_toWord (a0 a1 a2 a3 : Byte) :
    rotr8 (Column.toWord ⟨a0, a1, a2, a3⟩) = Column.toWord ⟨a3, a0, a1, a2⟩ := by
  rw [← rotWord_toWord a3 a0 a1 a2, rotWord, rotr8_rotl8]

theorem tTable1_eq (x : Byte) :
    tTable1 x = Column.toWord ⟨mulTable 0x03 (sbox x), mulTable 0x02 (sbox x), sbox x, sbox x⟩ := rotr8_toWord _ _ _ _

theorem tTable2_eq (x : Byte) :
    tTable2 x = Column.toWord ⟨sbox x, mulTable 0x03 (sbox x), mulTable 0x02 (sbox x), sbox x⟩ := by
  rw [tTable2, tTable1_eq, rotr8_toWord]

theorem tTable3_eq (x : Byte) :
    tTable3 x = Column.toWord ⟨sbox x, sbox x, mulTable 0x03 (sbox x), mulTable 0x02 (sbox x)⟩ := by
  rw [tTable3, tTable2_eq, rotr8_toWord]

theorem shiftRows_col (s : Block) (c : Fin 4) :
    (shiftRows s).col c = ⟨s.at 0 c, s.at 1 (c + 1), s.at 2 (c + 2), s.at 3 (c + 3)⟩ := by
  fin_cases c <;> rfl

/-- R100: the four tables hold the four columns of R73's matrix times the S-box, so their sum is the mixed column. -/
theorem tTables_eq_mixColumn (x0 x1 x2 x3 : Byte) : tTable0 x0 ^^^ tTable1 x1 ^^^ tTable2 x2 ^^^ tTable3 x3 =
    (mixColumn ⟨sbox x0, sbox x1, sbox x2, sbox x3⟩).toWord := by
  rw [tTable0, tTable1_eq, tTable2_eq, tTable3_eq, Column.toWord_xor, Column.toWord_xor, Column.toWord_xor]
  rfl

/-- R100: the round by table lookup is the byte-oriented round. -/
theorem fullRoundT_eq_fullRound (s k : Block) : fullRoundT s k = fullRound s k :=
  Block.ext_col fun c => by
    rw [fullRoundT, Block.col_ofWords, tTables_eq_mixColumn, Block.word, Column.toWord_xor, Column.ofWord_toWord,
      fullRound, addRoundKey_col, mixColumns, Block.col_mapColumns, shiftRows_col]
    simp only [subBytes, Block.at_map, Column.xor]

/-- R101: F selects between two ways to compute one function. -/
theorem fullRoundBy_eq_fullRound (f : Bool) : fullRoundBy f = fullRound := by
  cases f with
  | false => rfl
  | true => exact funext₂ fullRoundT_eq_fullRound

theorem cipherBy_eq_cipherBy_false (f : Bool) (s : Block) (keys : Nat → Block) (n : Nat) :
    cipherBy f s keys n = cipherBy false s keys n := by
  rw [cipherBy, cipherBy, fullRoundBy_eq_fullRound, fullRoundBy_eq_fullRound]

end Sys2Proof
end

section
/-! The ciphers as sequences of rounds, and that the equivalent inverse cipher undoes the cipher (43_cipher_driver.md R95
to R98). -/

namespace Sys2Proof

/-- R97: rounds 1 to `k`, as a fold over the round numbers. -/
theorem roundsFrom_eq_foldl (round : Block → Block → Block) (keys : Nat → Block) (s : Block) (k : Nat) :
    roundsFrom round keys s k = (List.range' 1 k).foldl (fun t r => round t (keys r)) s := by
  induction k with
  | zero => rfl
  | succ k ih => rw [roundsFrom, ih, List.range'_1_concat, List.foldl_concat, Nat.add_comm 1 k]

/-- Settles O20: the state after rounds 1 to `n - 1` is a fold over their numbers; the other clauses are the definitions. -/
theorem cipherComposesItsRounds : Obligations.CipherComposesItsRounds := by
  unfold Obligations.CipherComposesItsRounds
  refine ⟨fun s k => ⟨rfl, rfl, rfl, rfl⟩, fun s keys n _ => ?_, fun s keys => rfl⟩
  rw [cipherBy, fullRoundBy_eq_fullRound, roundsFrom_eq_foldl]

/-! ### The round trip -/

/-- R87: `ikeys` is the inverse schedule of the round keys `keys` of `n` rounds. -/
def InvertsKeys (ikeys keys : Nat → Block) (n : Nat) : Prop :=
  ∀ j, j ≤ n → ikeys j = if j = 0 ∨ j = n then keys (n - j) else invMixColumns (keys (n - j))

theorem invRound_fullRound (s k : Block) :
    invRound (shiftRows (subBytes (fullRound s k))) (invMixColumns k) = shiftRows (subBytes s) := by
  rw [invRound, invShiftRows_invSubBytes_shiftRows_subBytes, fullRound, invMixColumns_addRoundKey,
    invMixColumns_mixColumns, addRoundKey_addRoundKey]

section
variable {ikeys keys : Nat → Block} {n : Nat}

theorem InvertsKeys.first (h : InvertsKeys ikeys keys n) : ikeys 0 = keys n := by
  rw [h 0 (Nat.zero_le n), if_pos (.inl rfl), Nat.sub_zero]

theorem InvertsKeys.last (h : InvertsKeys ikeys keys n) : ikeys n = keys 0 := by
  rw [h n le_rfl, if_pos (.inr rfl), Nat.sub_self]

/-- R98: after `k` of the inverse rounds the state is that of the cipher `k` rounds before its last, with the byte
transforms of the next round done. -/
theorem roundsFrom_invRound (h : InvertsKeys ikeys keys n) (s : Block) {k j : Nat} (hkj : k + j + 1 = n) :
    roundsFrom invRound ikeys (shiftRows (subBytes (roundsFrom fullRound keys s (n - 1)))) k =
      shiftRows (subBytes (roundsFrom fullRound keys s j)) := by
  induction k generalizing j with
  | zero =>
    obtain rfl : j = n - 1 := by omega
    rfl
  | succ k ih =>
    have hkey : ikeys (k + 1) = invMixColumns (keys (j + 1)) := by
      rw [h (k + 1) (by omega), if_neg (by omega), show n - (k + 1) = j + 1 by omega]
    rw [roundsFrom, ih (j := j + 1) (by omega), hkey, roundsFrom, invRound_fullRound]

/-- R98: over the inverse schedule, the equivalent inverse cipher undoes the cipher. -/
theorem eqInvCipher_cipherBy (h : InvertsKeys ikeys keys n) (hn : 1 ≤ n) (f : Bool) (s : Block) :
    eqInvCipher (cipherBy f s keys n) ikeys n = s := by
  rw [cipherBy, fullRoundBy_eq_fullRound, eqInvCipher, h.first, finalRound, addRoundKey_addRoundKey,
    roundsFrom_invRound h _ (j := 0) (by omega), invFinalRound, invShiftRows_invSubBytes_shiftRows_subBytes, roundsFrom,
    h.last, addRoundKey_addRoundKey]

end

end Sys2Proof
end

section
/-! The F bit of the commands, and NOP (43_cipher_driver.md R101, R109). -/

namespace Sys2Proof.Machine

theorem execute_of_listedIllegal {w : Word} (h : ListedIllegal w) (s : State) :
    execute w s = .next { s with err := .illegalCommand } :=
  execute_of_no_row (fun _ hrow => hits_eq_false_of_listedIllegal h hrow) s

/-- R57, R101: no inverse command has a format that takes F. -/
theorem inverse_takes_no_fast : ∀ op ∈ ([0x11, 0x13, 0x15, 0x17, 0x22, 0x23, 0x31] : List Byte),
    ∃ row ∈ opcodeRows, opField row.pattern = op ∧ row.format.takesFast = false := by
  decide

theorem exec_round (r : Nat) (f : Bool) (s : State) : exec (.round r f) s = withRoundKey fullRound r s := by
  rw [exec, execRound, fullRoundBy_eq_fullRound]

theorem exec_encrypt (f : Bool) (s : State) : exec (.encrypt f) s =
    requireKey s (commitData (cipherBy false s.data (roundKey s) (roundCount s)) s) := by
  rw [exec, execEncrypt, cipherBy_eq_cipherBy_false]

theorem exec_encryptn (n : Nat) (f : Bool) (s : State) : exec (.encryptn n f) s =
    requireKey s (requireKey128 s (requireRoundCount n s (commitData (cipherBy false s.data (roundKey s) n) s))) := by
  rw [exec, execEncryptn, cipherBy_eq_cipherBy_false]

/-- Settles O23: each command's meaning is that of the byte-oriented datapath, whatever F is, and R58 lists the inverse
commands' words with F = 1. -/
theorem fastBitChangesNoResult : Obligations.FastBitChangesNoResult := by
  unfold Obligations.FastBitChangesNoResult
  refine ⟨fun r s => ?_, fun s => ?_, fun n s => ?_, fun w s hfast hop => ?_⟩
  · rw [exec_round, exec_round]
  · rw [exec_encrypt, exec_encrypt]
  · rw [exec_encryptn, exec_encryptn]
  · have hlisted : ListedIllegal w :=
      (listedIllegal_iff w).mpr (.inr (.inr (.inr (.inr ⟨hfast, inverse_takes_no_fast _ hop⟩))))
    exact execute_of_listedIllegal hlisted s

/-- R29: clearing ERR clears STATUS above its low 12 bits and keeps those. -/
theorem statusWord_clear_err (s : State) : statusWord { s with err := .ok } = statusWord s &&& 0x00000FFF := by
  simp only [statusWord]
  generalize s.err.code = code, s.keystate.nr = nr, s.keystate.nk = nk, s.keystate.kvBit = kv
  ext i hi
  simp only [ErrCode.code, BitVec.getElem_and, BitVec.getElem_or, BitVec.getElem_shiftLeft, BitVec.getElem_setWidth]
  interval_cases i <;> simp

/-- Settles O24: STATUS 0x00003000 has nothing in its low 12 bits, which are all that NOP leaves of it. -/
theorem nopOnlyClearsErr : Obligations.NopOnlyClearsErr := by
  unfold Obligations.NopOnlyClearsErr
  refine ⟨by decide, fun s => rfl, illegalForms_of_row (row := ⟨"NOP", .n, 0x00000000, 0xFFFFFFFF⟩) (by decide),
    fun s hstatus => ⟨_, rfl, ?_⟩⟩
  rw [statusWord_clear_err, hstatus]
  decide

end Sys2Proof.Machine
end

section
/-! The spec's example key loaded: the round-key files that its example commands read (95_test_vectors.md L2-K1, L2-K2). -/

namespace Sys2Proof.Machine

/-- The state after LOADKEY in the spec's examples. -/
def loadedExample (h : BitVec 128) : State := constructInstance .aes128 exampleKey (stagedExample h)

theorem stagedKey_stagedExample (h : BitVec 128) : stagedKey 4 (stagedExample h) = exampleKey := by
  simp only [stagedKey, stagedExample]
  decide

theorem exec_loadkey_stagedExample (h : BitVec 128) : exec .loadkey (stagedExample h) = .next (loadedExample h) := by
  rw [exec_loadkey_of_size (ks := .aes128) rfl, KeySize.words, stagedKey_stagedExample]
  rfl

theorem execAll_loadkey_stagedExample (i : Instr) (h : BitVec 128) :
    execAll [.loadkey, i] (stagedExample h) = exec i (loadedExample h) := by
  obtain ⟨t, ht⟩ := exec_completes i (loadedExample h)
  rw [execAll_pair (exec_loadkey_stagedExample h) ht, ht]

theorem loadedExample_holdsKey (h : BitVec 128) : (loadedExample h).holdsKey .aes128 exampleKey :=
  ⟨rfl, rfl, fun r => ⟨roundKeyFile_getElem _ r, roundKeyFile_getElem _ r⟩⟩

theorem loadedExample_rk (h : BitVec 128) {r : Nat} (hr : r < 15) :
    (loadedExample h).rk[r] = exampleSchedule.val.getD r zeroBlock :=
  keyExpansion_exampleKey ▸ roundKeyFile_getElem _ ⟨r, hr⟩

theorem loadedExample_irk (h : BitVec 128) {r : Nat} (hr : r < 15) :
    (loadedExample h).irk[r] = (inverseSchedule exampleSchedule.val 10).getD r zeroBlock :=
  keyExpansion_exampleKey ▸ roundKeyFile_getElem _ ⟨r, hr⟩

/-- The example of a keyed command: `f` of the example's S and one block of a round-key file. -/
theorem KeyedCommandRule.loadkey_example {word : Nat → Word} {mk : Nat → Instr} {f : Block → Block → Block}
    {file : State → Vector Block 15} (hrule : KeyedCommandRule word mk f file) {r : Nat} (hr : r ≤ 10)
    (h : BitVec 128) :
    okData (execAll [.loadkey, mk r] (stagedExample h)) = some (f (Block.ofHex h) (file (loadedExample h))[r]) := by
  obtain ⟨-, heffect, -, -⟩ := hrule
  rw [execAll_loadkey_stagedExample, heffect ⟨r, by omega⟩ (loadedExample h) rfl hr]
  rfl

end Sys2Proof.Machine
end

section
/-! The commands of opcode group 0x2_: one round of the state in place (43_cipher_driver.md R102 to R105). -/

namespace Sys2Proof.Machine

theorem round_rule (f : Bool) :
    KeyedCommandRule (fun r => 0x00000020 ||| (BitVec.ofNat 32 r <<< 8) ||| (BitVec.ofNat 32 f.toNat <<< 16))
      (fun r => .round r f) fullRound State.rk :=
  keyedCommandRule_of_withRoundKey (by cases f <;> decide) fun r s => exec_round r f s

theorem finalround_rule :
    KeyedCommandRule (fun r => 0x00000021 ||| (BitVec.ofNat 32 r <<< 8)) .finalround finalRound State.rk :=
  keyedCommandRule_of_withRoundKey (by decide) fun _ _ => rfl

theorem invround_rule :
    KeyedCommandRule (fun r => 0x00000022 ||| (BitVec.ofNat 32 r <<< 8)) .invround invRound State.irk :=
  keyedCommandRule_of_withInvRoundKey (by decide) fun _ _ => rfl

theorem invfinalround_rule :
    KeyedCommandRule (fun r => 0x00000023 ||| (BitVec.ofNat 32 r <<< 8)) .invfinalround invFinalRound State.irk :=
  keyedCommandRule_of_withInvRoundKey (by decide) fun _ _ => rfl

/-- Settles O36: the rule holds for either F, and the example is one full round with the example's round key 1. -/
theorem roundAppliesOneFullRound : Obligations.RoundAppliesOneFullRound := by
  unfold Obligations.RoundAppliesOneFullRound
  refine ⟨round_rule, illegalForms_of_row (row := ⟨"ROUND", .idxFast, 0x00000020, 0xFFFEF0FF⟩) (by decide), fun f => ?_⟩
  rw [(round_rule f).loadkey_example (r := 1) (by decide), loadedExample_rk]
  decide

/-- Settles O37: the example is one final round with the example's round key 10. -/
theorem finalroundOmitsMixColumns : Obligations.FinalroundOmitsMixColumns := by
  unfold Obligations.FinalroundOmitsMixColumns
  refine ⟨finalround_rule, illegalForms_of_row (row := ⟨"FINALROUND", .i, 0x00000021, 0xFFFFF0FF⟩) (by decide), ?_⟩
  rw [finalround_rule.loadkey_example (r := 10) (by decide), loadedExample_rk]
  decide

/-- Settles O38: the example is one inverse round with entry 1 of the example's inverse schedule. -/
theorem invroundAppliesOneInverseRound : Obligations.InvroundAppliesOneInverseRound := by
  unfold Obligations.InvroundAppliesOneInverseRound
  refine ⟨invround_rule, illegalForms_of_row (row := ⟨"INVROUND", .i, 0x00000022, 0xFFFFF0FF⟩) (by decide), ?_⟩
  rw [invround_rule.loadkey_example (r := 1) (by decide), loadedExample_irk]
  decide

/-- R98, R105: the last key of a loaded inverse schedule is the cipher's first. -/
theorem invRoundKey_last_of_holdsKey {s : State} {ks : KeySize} {key : List Byte} (h : s.holdsKey ks key) :
    invRoundKey s s.keystate.nr.toNat = roundKey s 0 := by
  rw [nr_of_holdsKey h, invRoundKey_of_holdsKey h le_rfl, if_pos (.inr rfl), Nat.sub_self]

/-- Settles O39: the example is one inverse final round with entry 10 of the example's inverse schedule. -/
theorem invfinalroundOmitsInvMixColumns : Obligations.InvfinalroundOmitsInvMixColumns := by
  unfold Obligations.InvfinalroundOmitsInvMixColumns
  refine ⟨invfinalround_rule, illegalForms_of_row (row := ⟨"INVFINALROUND", .i, 0x00000023, 0xFFFFF0FF⟩) (by decide),
    fun s hinv hkv => ?_, ?_⟩
  · obtain ⟨ks, key, hkey⟩ := exists_holdsKey_of_loaded hinv hkv
    exact invRoundKey_last_of_holdsKey hkey
  · rw [invfinalround_rule.loadkey_example (r := 10) (by decide), loadedExample_irk]
    decide

end Sys2Proof.Machine
end

section
/-! The cipher driver: DECRYPT and ENCRYPTN, and a cipher as the sequence of its round commands (43_cipher_driver.md R106
to R108). -/

namespace Sys2Proof

theorem KeySize.one_le_rounds (ks : KeySize) : 1 ≤ ks.rounds := by cases ks <;> decide

namespace Machine

theorem execAll_append {l rest : List Instr} {s t : State} (h : execAll l s = .next t) :
    execAll (l ++ rest) s = execAll rest t := by
  induction l generalizing s with
  | nil =>
    obtain rfl : s = t := by simpa [execAll] using h
    rfl
  | cons i l ih =>
    obtain ⟨u, hu⟩ := exec_completes i s
    rw [execAll_cons hu] at h
    rw [List.cons_append, execAll_cons hu, ih h]

/-! ### Round commands in sequence -/

/-- The command `mk r` applies `f` to S and `keys r`, whatever S and ERR are in the state `s` otherwise. -/
def AppliesKey (mk : Nat → Instr) (f : Block → Block → Block) (keys : Nat → Block) (s : State) : Prop :=
  ∀ (b : Block) (e : ErrCode) (r : Nat), r ≤ roundCount s →
    exec (mk r) { s with data := b, err := e } = .next { s with data := f b (keys r), err := .ok }

section
variable {s : State}

/-- R110: with an instance, a command that checks for one and for its index applies its key, which neither S nor ERR
changes. -/
theorem appliesKey_of_checks {mk : Nat → Instr} {f : Block → Block → Block} {keyOf : State → Nat → Block}
    (hkv : s.keystate.kv = true)
    (hexec : ∀ r t, exec (mk r) t = requireKey t (requireIndex r t (commitData (f t.data (keyOf t r)) t)))
    (hkey : ∀ b e, keyOf { s with data := b, err := e } = keyOf s) : AppliesKey mk f (keyOf s) s := by
  intro b e r hr
  rw [hexec, requireKey_of_loaded (s := { s with data := b, err := e }) hkv,
    requireIndex_of_le (s := { s with data := b, err := e }) hr, commitData_eq, hkey]

section
variable {first mid last : Nat → Instr} {f g h : Block → Block → Block} {keys : Nat → Block}

/-- R97, R98: the commands of rounds 1 to `k` leave the state after those rounds. -/
theorem execAll_rounds (hmid : AppliesKey mid g keys s) (b : Block) {k : Nat} (hk : k ≤ roundCount s) :
    execAll ((List.range' 1 k).map mid) { s with data := b, err := .ok } =
      .next { s with data := roundsFrom g keys b k, err := .ok } := by
  induction k with
  | zero => rfl
  | succ k ih =>
    rw [List.range'_1_concat, List.map_append, execAll_append (ih (by omega)), List.map_singleton, Nat.add_comm 1 k,
      execAll_cons (hmid _ _ (k + 1) hk)]
    rfl

/-- R106, R107: the commands of one key addition, rounds 1 to NR - 1 and a final round, one after another. -/
theorem execAll_cipher_sequence (hfirst : AppliesKey first f keys s) (hmid : AppliesKey mid g keys s)
    (hlast : AppliesKey last h keys s) :
    execAll (first 0 :: ((List.range' 1 (roundCount s - 1)).map mid ++ [last (roundCount s)])) s =
      .next { s with
        data := h (roundsFrom g keys (f s.data (keys 0)) (roundCount s - 1)) (keys (roundCount s)), err := .ok } := by
  rw [execAll_cons (hfirst s.data s.err 0 (Nat.zero_le _)), execAll_append (execAll_rounds hmid _ (Nat.sub_le _ _)),
    execAll_cons (hlast _ _ _ le_rfl)]
  rfl

end

/-! ### ENCRYPT and DECRYPT -/

theorem exec_encrypt_of_loaded (hkv : s.keystate.kv = true) (f : Bool) : exec (.encrypt f) s =
    .next { s with data := cipherBy false s.data (roundKey s) (roundCount s), err := .ok } := by
  rw [exec_encrypt, requireKey_of_loaded hkv, commitData_eq]

theorem exec_decrypt_of_loaded (hkv : s.keystate.kv = true) : exec .decrypt s =
    .next { s with data := eqInvCipher s.data (invRoundKey s) (roundCount s), err := .ok } :=
  requireKey_of_loaded hkv

/-- R107: DECRYPT is the sequence of its round commands. -/
theorem exec_decrypt_eq_sequence (hkv : s.keystate.kv = true) : exec .decrypt s =
    execAll (.addirk 0 :: ((List.range' 1 (roundCount s - 1)).map Instr.invround ++ [.invfinalround (roundCount s)]))
      s := by
  have hinverse {mk : Nat → Instr} {f : Block → Block → Block} (hexec : ∀ r t, exec (mk r) t = withInvRoundKey f r t) :
      AppliesKey mk f (invRoundKey s) s := appliesKey_of_checks hkv hexec fun _ _ => rfl
  have haddirk : AppliesKey .addirk addRoundKey (invRoundKey s) s := hinverse fun _ _ => rfl
  have hinvround : AppliesKey .invround invRound (invRoundKey s) s := hinverse fun _ _ => rfl
  have hinvfinal : AppliesKey .invfinalround invFinalRound (invRoundKey s) s := hinverse fun _ _ => rfl
  rw [execAll_cipher_sequence haddirk hinvround hinvfinal, exec_decrypt_of_loaded hkv]
  rfl

theorem invertsKeys_of_holdsKey {ks : KeySize} {key : List Byte} (h : s.holdsKey ks key) :
    InvertsKeys (invRoundKey s) (roundKey s) ks.rounds := fun _ hj => invRoundKey_of_holdsKey h hj

/-- R107: in a state that holds a key, of any size, DECRYPT undoes ENCRYPT. -/
theorem execAll_encrypt_decrypt (hinv : s.instanceInv) (hkv : s.keystate.kv = true) (f : Bool) :
    execAll [.encrypt f, .decrypt] s = .next { s with err := .ok } := by
  obtain ⟨ks, key, hkey⟩ := exists_holdsKey_of_loaded hinv hkv
  have hcount : roundCount s = ks.rounds := nr_of_holdsKey hkey
  have hround := eqInvCipher_cipherBy (invertsKeys_of_holdsKey hkey) ks.one_le_rounds false s.data
  rw [← hcount] at hround
  rw [execAll_pair (exec_encrypt_of_loaded hkv f) (exec_decrypt_of_loaded hkv)]
  exact congrArg (fun b => Host.Outcome.next { s with data := b, err := .ok }) hround

end

/-! ### ENCRYPTN -/

section
variable {s : State} {go : Result} {n : Nat}

theorem requireKey128_of_eq (h : s.keystate.nk = 4) : requireKey128 s go = go :=
  if_neg (not_not.mpr h)

theorem requireKey128_of_ne (h : s.keystate.nk ≠ 4) :
    requireKey128 s go = .next { s with err := .keySizeMismatch } := if_pos h

theorem requireRoundCount_of_le (hpos : 1 ≤ n) (hle : n ≤ roundCount s) : requireRoundCount n s go = go :=
  if_neg (by omega)

theorem requireRoundCount_of_bad (h : n = 0 ∨ n > roundCount s) :
    requireRoundCount n s go = .next { s with err := .badIndex } := if_pos h

theorem exec_encryptn_of_le (f : Bool) (hkv : s.keystate.kv = true) (hnk : s.keystate.nk = 4) (hpos : 1 ≤ n)
    (hle : n ≤ roundCount s) :
    exec (.encryptn n f) s = .next { s with data := cipherBy false s.data (roundKey s) n, err := .ok } := by
  rw [exec_encryptn, requireKey_of_loaded hkv, requireKey128_of_eq hnk, requireRoundCount_of_le hpos hle, commitData_eq]

theorem decode_encryptn : ∀ f : Bool, ∀ n, n ≤ 15 →
    decode (0x00000032 ||| (BitVec.ofNat 32 n <<< 8) ||| (BitVec.ofNat 32 f.toNat <<< 16)) = .ok (.encryptn n f) := by
  decide

end

/-! ### The examples -/

theorem okData_ok (b : Block) (s : State) : okData (.next { s with data := b, err := .ok }) = some b := rfl

/-- The forward keys of the example as a function that can be evaluated without the expansion. -/
theorem roundKey_loadedExample (h : BitVec 128) :
    roundKey (loadedExample h) = fun r => (roundKeyFile exampleSchedule.val).toList.getD r zeroBlock := by
  rw [← keyExpansion_exampleKey]
  rfl

/-- The source's known-answer vector (R106). -/
theorem cipherBy_loadedExample (h : BitVec 128) :
    cipherBy false (Block.ofHex 0x3243f6a8885a308d313198a2e0370734) (roundKey (loadedExample h)) 10 =
      Block.ofHex 0x3925841d02dc09fbdc118597196a0b32 := by
  rw [roundKey_loadedExample]
  decide +kernel

/-- The known-answer vector backwards, by the round trip. -/
theorem eqInvCipher_loadedExample (h : BitVec 128) :
    eqInvCipher (Block.ofHex 0x3925841d02dc09fbdc118597196a0b32) (invRoundKey (loadedExample h)) 10 =
      Block.ofHex 0x3243f6a8885a308d313198a2e0370734 := by
  rw [← cipherBy_loadedExample h]
  exact eqInvCipher_cipherBy (invertsKeys_of_holdsKey (loadedExample_holdsKey h)) (by decide) false _

/-! ### The two statements -/

/-- Settles O41: DECRYPT after ENCRYPT is the inverse cipher over the schedule that inverts the cipher's keys, and its
round commands each apply one step of it; the example is the known-answer vector backwards. -/
theorem decryptRunsTheEquivalentInverseCipher : Obligations.DecryptRunsTheEquivalentInverseCipher := by
  unfold Obligations.DecryptRunsTheEquivalentInverseCipher
  refine ⟨by decide, fun s hkv => exec_decrypt_of_loaded hkv, fun s hkv => exec_of_no_key rfl hkv,
    illegalForms_of_row (row := ⟨"DECRYPT", .n, 0x00000031, 0xFFFFFFFF⟩) (by decide),
    fun f s hinv hkv => execAll_encrypt_decrypt hinv hkv f, fun s hkv _ => exec_decrypt_eq_sequence hkv, ?_⟩
  rw [execAll_loadkey_stagedExample, exec_decrypt_of_loaded rfl, okData_ok]
  exact congrArg some (eqInvCipher_loadedExample _)

/-- Settles O42: the three checks in their order, and the effect of the byte-oriented cipher for either F. -/
theorem encryptnRunsTheReducedCipher : Obligations.EncryptnRunsTheReducedCipher := by
  unfold Obligations.EncryptnRunsTheReducedCipher
  refine ⟨fun n f => decode_encryptn f n, fun n f s hkv hnk hpos hle => exec_encryptn_of_le f hkv hnk hpos hle,
    fun n f s hkv => exec_of_no_key rfl hkv, fun n f s hkv hnk => ?_, fun n f s hkv hnk hbad => ?_,
    illegalForms_of_row (row := ⟨"ENCRYPTN", .idxFast, 0x00000032, 0xFFFEF0FF⟩) (by decide), fun f s hstate => ?_,
    fun s keys => rfl, fun f => ?_⟩
  · rw [exec_encryptn, requireKey_of_loaded hkv, requireKey128_of_ne hnk]
  · rw [exec_encryptn, requireKey_of_loaded hkv, requireKey128_of_eq hnk, requireRoundCount_of_bad hbad]
  · have hkv : s.keystate.kv = true := by rw [hstate]
    have hcount : roundCount s = 10 := by rw [roundCount, hstate]; rfl
    rw [exec_encryptn_of_le f hkv (by rw [hstate]) (by decide) hcount.ge, exec_encrypt_of_loaded hkv, hcount]
  · rw [execAll_loadkey_stagedExample, exec_encryptn_of_le f rfl rfl (by decide) (by decide), okData_ok,
      roundKey_loadedExample]
    decide +kernel

end Machine

end Sys2Proof
end

section
/-! Command errors: which one a command reports, and the state that it leaves (60_exceptions.md R110 to R112). -/

namespace Sys2Proof.Machine

/-- R112: what a command that reports the error `e` leaves of `s`; INVALID_KEY_SIZE alone also destroys the instance. -/
def afterError (e : ErrCode) (s : State) : State :=
  { (if e = .invalidKeySize then destroyInstance s else s) with err := e }

theorem afterError_of_ne {e : ErrCode} (h : e ≠ .invalidKeySize) (s : State) : afterError e s = { s with err := e } := by
  rw [afterError, if_neg h]

theorem afterError_invalidKeySize (s : State) :
    afterError .invalidKeySize s = { destroyInstance s with err := .invalidKeySize } := rfl

/-- The result `r` of a command in the state `s` completes and reports `e`, with the effect of R112 where `e` is an
error. -/
def Reports (e : ErrCode) (s : State) (r : Result) : Prop :=
  ∃ t, r = .next t ∧ t.err = e ∧ (e ≠ .ok → t = afterError e s)

section
variable {e code : ErrCode} {s t : State} {go : Result}

theorem Reports.eq_afterError (h : Reports e s (.next t)) (hne : t.err ≠ .ok) : t = afterError t.err s := by
  obtain ⟨t', hnext, rfl, hleft⟩ := h
  obtain rfl : t = t' := by simpa using hnext
  exact hleft hne

theorem reports_complete (s u : State) : Reports .ok s (complete u) :=
  ⟨_, complete_eq u, rfl, fun h => absurd rfl h⟩

theorem reports_commitData (b : Block) (s : State) : Reports .ok s (commitData b s) := reports_complete s _

theorem reports_raiseCmdError (h : code ≠ .invalidKeySize) (s : State) : Reports code s (raiseCmdError code s) :=
  ⟨_, raiseCmdError_eq code s, rfl, fun _ => (afterError_of_ne h s).symm⟩

/-! ### The checks on operands -/

/-- R111: a check that fails raises its own error, and nothing after it is checked. -/
theorem reports_check {c : Prop} [Decidable c] (hcode : code ≠ .invalidKeySize) (h : Reports e s go) :
    Reports (if c then code else e) s (if c then raiseCmdError code s else go) := by
  split
  · exact reports_raiseCmdError hcode s
  · exact h

theorem reports_requireKey (h : Reports e s go) :
    Reports (if s.keystate.kv = false then .noKey else e) s (requireKey s go) := by
  have hcheck : requireKey s go = if s.keystate.kv = false then raiseCmdError .noKey s else go := by
    cases hkv : s.keystate.kv <;> simp [requireKey, hkv]
  rw [hcheck]
  exact reports_check nofun h

theorem reports_requireIndex (r : Nat) (h : Reports e s go) :
    Reports (if r > s.keystate.nr.toNat then .badIndex else e) s (requireIndex r s go) := reports_check nofun h

theorem reports_requireKey128 (h : Reports e s go) :
    Reports (if s.keystate.nk ≠ 4 then .keySizeMismatch else e) s (requireKey128 s go) := reports_check nofun h

theorem reports_requireRoundCount (n : Nat) (h : Reports e s go) :
    Reports (if n = 0 ∨ n > s.keystate.nr.toNat then .badIndex else e) s (requireRoundCount n s go) :=
  reports_check nofun h

/-- R111: a command over one round key, of either file, reports NO_KEY before BAD_INDEX. -/
theorem reports_keyed (r : Nat) (b : Block) (s : State) :
    Reports (if s.keystate.kv = false then .noKey else if r > s.keystate.nr.toNat then .badIndex else .ok) s
      (requireKey s (requireIndex r s (commitData b s))) :=
  reports_requireKey (reports_requireIndex r (reports_commitData b s))

end

/-! ### The commands -/

/-- R25, R89: KEYLEN stands for a key size exactly where it is 16, 24 or 32. -/
theorem exists_keySizeOf {keylen : Word} (h : keylen = 16 ∨ keylen = 24 ∨ keylen = 32) :
    ∃ ks, keySizeOf keylen = some ks := by
  obtain rfl | rfl | rfl := h
  exacts [⟨.aes128, rfl⟩, ⟨.aes192, rfl⟩, ⟨.aes256, rfl⟩]

theorem exec_loadkey_reports (s : State) : Reports (firstError .loadkey s) s (exec .loadkey s) := by
  rw [firstError]
  split
  case isTrue h =>
    obtain ⟨ks, hks⟩ := exists_keySizeOf h
    rw [exec_loadkey_of_size hks]
    exact reports_complete s _
  case isFalse h =>
    obtain ⟨h16, h24, h32⟩ : s.keylen ≠ 16 ∧ s.keylen ≠ 24 ∧ s.keylen ≠ 32 := by simpa using h
    rw [exec_loadkey_of_illegal_length h16 h24 h32]
    exact ⟨_, rfl, rfl, fun _ => rfl⟩

/-- R111, R112: a command reports the first of its errors, and leaves what that error leaves. -/
theorem exec_reports (i : Instr) (s : State) : Reports (firstError i s) s (exec i s) := by
  cases i with
  | loadkey => exact exec_loadkey_reports s
  | addrk r | addirk r | round r | finalround r | invround r | invfinalround r => exact reports_keyed r _ s
  | encrypt | decrypt => exact reports_requireKey (reports_commitData _ s)
  | encryptn n =>
    exact reports_requireKey (reports_requireKey128 (reports_requireRoundCount n (reports_commitData _ s)))
  | prevrk k => exact reports_check nofun (reports_commitData _ s)
  | nop | clearkey | subbytes | invsubbytes | shiftrows | invshiftrows | mixcolumns | invmixcolumns =>
    exact reports_complete s _

/-- R111: the error a command word reports; a word is decoded before anything else is checked. -/
def reportedError (w : Word) (s : State) : ErrCode :=
  match decode w with
  | .error _ => .illegalCommand
  | .ok i => firstError i s

theorem execute_reports (w : Word) (s : State) : Reports (reportedError w s) s (execute w s) := by
  unfold reportedError execute
  cases decode w with
  | error _ => exact reports_raiseCmdError (code := .illegalCommand) nofun s
  | ok i => exact exec_reports i s

/-- Settles O50: an illegal word is stopped at the decoder; each check of a command stands before the rest of it, so the
first check that fails is the one reported. -/
theorem commandReportsItsFirstError : Obligations.CommandReportsItsFirstError := by
  unfold Obligations.CommandReportsItsFirstError
  refine ⟨rfl, fun e => by cases e <;> decide, fun w s => ?_⟩
  obtain ⟨t, hexec, herr, -⟩ := execute_reports w s
  exact ⟨t, hexec, herr⟩

/-- Settles O51: whatever error the word reports, the state left is `afterError`. -/
theorem commandErrorChangesNothingButErr : Obligations.CommandErrorChangesNothingButErr := by
  unfold Obligations.CommandErrorChangesNothingButErr
  refine ⟨fun w s => execute_completes w s, fun w s t h herr => ?_⟩
  have hreports : Reports (reportedError w s) s (.next t) := by
    rw [← h, memWrite_command]
    exact execute_reports w s
  have hleft : t = afterError t.err s := hreports.eq_afterError herr
  by_cases hsize : t.err = .invalidKeySize
  · rw [hsize, afterError_invalidKeySize] at hleft
    exact .inr ⟨hsize, hleft⟩
  · rw [afterError_of_ne hsize] at hleft
    exact .inl ⟨hsize, hleft⟩

end Sys2Proof.Machine
end

section
/-! Encoding and decoding undo each other (30_encoding.md R54 to R60). -/

namespace Sys2Proof

/-! ### The fields of an encoded word -/

/-- R54: a word whose five fields are the given ones. -/
def HasFields (w : Word) (op : Byte) (idx : Nat) (rsv1 : BitVec 4) (f : Bool) (rsv2 : BitVec 15) : Prop :=
  opField w = op ∧ idxField w = idx ∧ rsv1Field w = rsv1 ∧ fastField w = f ∧ rsv2Field w = rsv2

theorem and_map₂ {a b c a' b' c' : Prop} (f : a → b → c) (f' : a' → b' → c') (h : a ∧ a') (h' : b ∧ b') : c ∧ c' :=
  ⟨f h.1 h'.1, f' h.2 h'.2⟩

/-- A field of `v ||| w` is the field of `v` or that of `w`. -/
theorem extractLsb'_or_of_eq {v w : Word} {start len : Nat} {x y : BitVec len} (hv : v.extractLsb' start len = x)
    (hw : w.extractLsb' start len = y) : (v ||| w).extractLsb' start len = x ||| y :=
  BitVec.extractLsb'_or.trans (congrArg₂ _ hv hw)

theorem idxField_or_of_eq {v w : Word} {x y : Nat} (hv : idxField v = x) (hw : idxField w = y) :
    idxField (v ||| w) = x ||| y :=
  (congrArg BitVec.toNat BitVec.extractLsb'_or).trans ((BitVec.toNat_or ..).trans (congrArg₂ _ hv hw))

theorem fastField_or_of_eq {v w : Word} {x y : Bool} (hv : fastField v = x) (hw : fastField w = y) :
    fastField (v ||| w) = (x || y) :=
  BitVec.getLsbD_or.trans (congrArg₂ _ hv hw)

theorem hasFields_or {v w : Word} {opV opW : Byte} {idxV idxW : Nat} {rsvV rsvW : BitVec 4} {fV fW : Bool}
    {highV highW : BitVec 15} (hv : HasFields v opV idxV rsvV fV highV) (hw : HasFields w opW idxW rsvW fW highW) :
    HasFields (v ||| w) (opV ||| opW) (idxV ||| idxW) (rsvV ||| rsvW) (fV || fW) (highV ||| highW) :=
  and_map₂ extractLsb'_or_of_eq (and_map₂ idxField_or_of_eq (and_map₂ extractLsb'_or_of_eq
    (and_map₂ fastField_or_of_eq extractLsb'_or_of_eq))) hv hw

theorem hasFields_op (op : Byte) : HasFields (op.setWidth 32) op 0 0 false 0 :=
  ⟨opField_setWidth op, idxField_setWidth op, rsv1Field_setWidth op, fastField_setWidth op, rsv2Field_setWidth op⟩

theorem hasFields_idx : ∀ idx, idx ≤ 15 → HasFields (BitVec.ofNat 32 idx <<< 8) 0 idx 0 false 0 := by
  unfold HasFields
  decide

theorem hasFields_fast : ∀ f : Bool, HasFields (BitVec.ofNat 32 f.toNat <<< 16) 0 0 0 f 0 := by
  unfold HasFields
  decide

/-- R60: an encoded word holds its operands in their fields, and 0 in the reserved ones. -/
theorem hasFields_commandWord (op : Byte) {idx : Nat} (h : idx ≤ 15) (f : Bool) :
    HasFields (commandWord op idx f) op idx 0 f 0 := by
  have hor := hasFields_or (hasFields_or (hasFields_op op) (hasFields_idx idx h)) (hasFields_fast f)
  rw [commandWord]
  simpa using hor

theorem idxField_le (w : Word) : idxField w ≤ 15 := Nat.le_of_lt_succ (BitVec.isLt _)

/-- R54, R60: a word with no reserved bit set is the one its other fields encode to. -/
theorem commandWord_fields {w : Word} (hrsv1 : rsv1Field w = 0) (hrsv2 : rsv2Field w = 0) :
    commandWord (opField w) (idxField w) (fastField w) = w := by
  obtain ⟨hop, hidx, h1, hfast, h2⟩ := hasFields_commandWord (opField w) (idxField_le w) (fastField w)
  exact word_eq_iff_fields.mpr ⟨hop, hidx, h1.trans hrsv1.symm, hfast, h2.trans hrsv2.symm⟩

/-! ### The opcode map and the encoder -/

/-- R55: the operands a format does not take are 0. -/
def Format.operandsLegal (fmt : Format) (idx : Nat) (f : Bool) : Prop :=
  (fmt.takesIdx = false → idx = 0) ∧ (fmt.takesFast = false → f = false)

theorem operandsLegal_n : Format.n.operandsLegal 0 false := ⟨fun _ => rfl, fun _ => rfl⟩

theorem operandsLegal_i (idx : Nat) : Format.i.operandsLegal idx false := ⟨nofun, fun _ => rfl⟩

theorem operandsLegal_f (f : Bool) : Format.f.operandsLegal 0 f := ⟨fun _ => rfl, nofun⟩

theorem operandsLegal_idxFast (idx : Nat) (f : Bool) : Format.idxFast.operandsLegal idx f :=
  ⟨nofun, nofun⟩

theorem idxFits_iff {idx : Nat} : idxFits idx = true ↔ idx ≤ 15 := decide_eq_true_iff

/-- R54 to R58: an encoded word decodes to what the opcode map makes of its OP and operands, where these are legal. -/
theorem decode_commandWord {op : Byte} {idx : Nat} {f : Bool} {fmt : Format} {i : Instr} (hidx : idx ≤ 15)
    (hlegal : fmt.operandsLegal idx f) (hop : opcode op idx f = some (fmt, i)) :
    decode (commandWord op idx f) = .ok i := by
  obtain ⟨hwop, hwidx, hwrsv1, hwfast, hwrsv2⟩ := hasFields_commandWord op hidx f
  obtain ⟨hzero, hfalse⟩ := hlegal
  rw [decode_eq_ok_iff, hwop, hwidx, hwfast]
  exact ⟨fmt, hop, hwrsv1, hwrsv2, fun h => hwidx.trans (hzero h), fun h => hwfast.trans (hfalse h)⟩

/-- R57, R60: the encoder writes back the OP and the operands that the opcode map made a command of, at each of the 19
rows, 16 values of IDX and two of F. -/
theorem encode_of_row : ∀ row ∈ opcodeRows, ∀ idx, idx ≤ 15 → ∀ f, row.format.operandsLegal idx f →
    (opcode (opField row.pattern) idx f).map (fun p => (p.2.wellFormed, encode p.2)) =
      some (true, commandWord (opField row.pattern) idx f) := by
  unfold Format.operandsLegal
  decide

theorem encode_of_opcode {op : Byte} {idx : Nat} {f : Bool} {fmt : Format} {i : Instr}
    (hop : opcode op idx f = some (fmt, i)) (hidx : idx ≤ 15) (hlegal : fmt.operandsLegal idx f) :
    i.wellFormed = true ∧ encode i = commandWord op idx f := by
  obtain ⟨row, hrow, rfl⟩ := exists_row_of_opcode hop
  obtain ⟨j, hj, -⟩ := opcode_of_row hrow idx f
  obtain ⟨rfl, rfl⟩ := Prod.mk.inj (Option.some.inj (hop.symm.trans hj))
  have hword := encode_of_row row hrow idx hidx f hlegal
  rw [hop] at hword
  exact Prod.mk.inj (Option.some.inj hword)

/-- Settles O4: an encoding is built from the OP and the operands that the opcode map makes the command of, and the
operands are legal for its format. -/
theorem encodeThenDecodeGivesTheCommandBack : Obligations.EncodeThenDecodeGivesTheCommandBack := by
  unfold Obligations.EncodeThenDecodeGivesTheCommandBack
  intro i hwf
  cases i with
  | nop | loadkey | clearkey | subbytes | invsubbytes | shiftrows | invshiftrows | mixcolumns | invmixcolumns
  | decrypt => exact decode_commandWord (Nat.zero_le 15) operandsLegal_n rfl
  | addrk r | addirk r | finalround r | invround r | invfinalround r | prevrk r =>
    exact decode_commandWord (idxFits_iff.mp hwf) (operandsLegal_i r) rfl
  | round r f | encryptn r f => exact decode_commandWord (idxFits_iff.mp hwf) (operandsLegal_idxFast r f) rfl
  | encrypt f => exact decode_commandWord (Nat.zero_le 15) (operandsLegal_f f) rfl

/-- Settles O5: a legal word is the one its OP and operands encode to, and these are what the command is made of. -/
theorem decodeThenEncodeGivesTheWordBack : Obligations.DecodeThenEncodeGivesTheWordBack := by
  unfold Obligations.DecodeThenEncodeGivesTheWordBack
  intro w i hdec
  obtain ⟨fmt, hop, hrsv1, hrsv2, hoperands⟩ := decode_eq_ok_iff.mp hdec
  obtain ⟨hwf, henc⟩ := encode_of_opcode hop (idxField_le w) hoperands
  exact ⟨hwf, henc.trans (commandWord_fields hrsv1 hrsv2)⟩

/-- Settles O1: each of the ten words is closed, so the decoder is evaluated at it. -/
theorem wordsWrittenFromTheTableDecode : Obligations.WordsWrittenFromTheTableDecode := by
  unfold Obligations.WordsWrittenFromTheTableDecode
  decide

end Sys2Proof
end

section
/-! The cipher instance as an invariant of every step and of every run (10_state.md R26, R27, R37). -/

namespace Sys2Proof.Machine

/-! ### What keeps the invariant -/

section
variable {s t : State}

/-- R27: the invariant reads KEYSTATE, RK and IRK only. -/
theorem instanceInv_of_same_instance (h : s.instanceInv) (hstate : t.keystate = s.keystate) (hrk : t.rk = s.rk)
    (hirk : t.irk = s.irk) : t.instanceInv := by
  have hsame : { s with keystate := t.keystate, rk := t.rk, irk := t.irk }.instanceInv := by
    rw [hstate, hrk, hirk]
    exact h
  exact hsame

theorem destroyInstance_instanceInv (s : State) : (destroyInstance s).instanceInv :=
  .inl ⟨rfl, fun r => ⟨Vector.getElem_replicate r.isLt, Vector.getElem_replicate r.isLt⟩⟩

/-- R89: LOADKEY's instance is the one of the key it is given. -/
theorem constructInstance_instanceInv {ks : KeySize} {key : List Byte} (hlen : key.length = 4 * ks.words) (s : State) :
    (constructInstance ks key s).instanceInv :=
  .inr ⟨ks, key, hlen, rfl, fun r => ⟨roundKeyFile_getElem _ r, roundKeyFile_getElem _ r⟩⟩

theorem reset_instanceInv : State.reset.instanceInv := .inl ⟨rfl, fun r => ⟨reset_rk_getElem r, reset_irk_getElem r⟩⟩

/-- R37: what a command leaves, as `exec_next` has it, for any property of the next state. -/
theorem exec_elim {P : State → Prop} {i : Instr} (h : exec i s = .next t) (herr : ∀ e, P { s with err := e })
    (hdata : ∀ b, P { s with data := b, err := .ok })
    (hdestroy : ∀ e, i = .loadkey ∨ i = .clearkey → P { destroyInstance s with err := e })
    (hconstruct : ∀ ks, i = .loadkey → P { constructInstance ks (stagedKey ks.words s) s with err := .ok }) : P t := by
  obtain ⟨e, ht⟩ | ⟨b, ht⟩ | ⟨e, hi, ht⟩ | ⟨ks, hi, -, ht⟩ := exec_next h
  · exact ht ▸ herr e
  · exact ht ▸ hdata b
  · exact ht ▸ hdestroy e hi
  · exact ht ▸ hconstruct ks hi

/-- R42, R43, R126: what a host access leaves, as `performEvent_next` and `memWrite_next` have it, for any property of
the next state. -/
theorem performEvent_elim {P : State → Prop} {e : HostEvent} (h : performEvent e s = .next t)
    (hread : ∀ n off v, e = .read n off → P { s with reads := s.reads ++ [v] })
    (hcommand : ∀ w, e = .write 4 0x000 w → execute w s = .next t → P t)
    (hstore : ∀ a v, e = .write 4 (RegAddr.offset a) v → P (writeReg a v s)) (hreset : e = .reset → P (resetCore s)) :
    P t := by
  obtain ⟨n, off, v, he, -, ht⟩ | ⟨n, off, v, he, hwrite⟩ | ⟨he, ht⟩ := performEvent_next h
  · exact ht ▸ hread n off v he
  · obtain ⟨hn, hoff, h⟩ | ⟨a, hn, hoff, -, ht⟩ := memWrite_next hwrite
    · exact hcommand v (hn ▸ hoff ▸ he) h
    · exact ht ▸ hstore a v (hn ▸ hoff ▸ he)
  · exact ht ▸ hreset he

theorem exec_keeps_instanceInv {i : Instr} (hinv : s.instanceInv) (h : exec i s = .next t) : t.instanceInv := by
  refine exec_elim h (fun e => ?_) (fun b => ?_) (fun e _ => ?_) (fun ks _ => ?_)
  · exact instanceInv_of_same_instance hinv rfl rfl rfl
  · exact instanceInv_of_same_instance hinv rfl rfl rfl
  · exact instanceInv_of_same_instance (destroyInstance_instanceInv s) rfl rfl rfl
  · exact instanceInv_of_same_instance
      (constructInstance_instanceInv (stagedKey_length ks.words_le_eight s) s) rfl rfl rfl

theorem execute_keeps_instanceInv {w : Word} (hinv : s.instanceInv) (h : execute w s = .next t) : t.instanceInv := by
  obtain ⟨i, -, h⟩ | ⟨e, -, rfl⟩ := execute_next h
  · exact exec_keeps_instanceInv hinv h
  · exact instanceInv_of_same_instance hinv rfl rfl rfl

theorem performEvent_keeps_instanceInv {e : HostEvent} (hinv : s.instanceInv) (h : performEvent e s = .next t) :
    t.instanceInv := by
  refine performEvent_elim h (fun n off v _ => ?_) (fun w _ h => ?_) (fun a v _ => ?_) (fun _ => ?_)
  · exact instanceInv_of_same_instance hinv rfl rfl rfl
  · exact execute_keeps_instanceInv hinv h
  · exact instanceInv_of_same_instance hinv (writeReg_keystate a v s) (writeReg_rk a v s) (writeReg_irk a v s)
  · exact instanceInv_of_same_instance reset_instanceInv rfl rfl rfl

theorem step_keeps_instanceInv (hinv : s.instanceInv) (h : step s = .next t) : t.instanceInv := by
  obtain ⟨-, rfl⟩ | ⟨e, rest, -, h⟩ := step_next h
  · exact hinv
  · exact performEvent_keeps_instanceInv (s := { s with pending := rest })
      (instanceInv_of_same_instance hinv rfl rfl rfl) h

/-- R26, R27: what holds at reset and after every step, whatever the host does, holds of every run. -/
theorem Reachable.instanceInv (h : Reachable s) : s.instanceInv := by
  induction h with
  | reset => exact reset_instanceInv
  | hostChooses s events _ ih => exact instanceInv_of_same_instance ih rfl rfl rfl
  | step s t _ hstep ih => exact step_keeps_instanceInv ih hstep

/-- R26: KEYSTATE is a legal value with no instance and with the instance of any key. -/
theorem legal_of_instanceInv (h : s.instanceInv) : s.keystate.legal := by
  obtain ⟨hempty, -⟩ | ⟨ks, key, -, hloaded, -⟩ := h
  · exact .inl hempty
  · rw [hloaded]
    cases ks with
    | aes128 => exact .inr (.inl rfl)
    | aes192 => exact .inr (.inr (.inl rfl))
    | aes256 => exact .inr (.inr (.inr rfl))

end

/-- Settles O45: a command leaves the instance, destroys it or constructs one of the staged key; a store leaves it; a
reset destroys it. -/
theorem stepKeepsTheInstanceInvariant : Obligations.StepKeepsTheInstanceInvariant := by
  unfold Obligations.StepKeepsTheInstanceInvariant
  exact fun _ _ hinv h => step_keeps_instanceInv hinv h

/-- Settles O46: the reset state has no instance. -/
theorem resetMeetsTheInstanceInvariant : Obligations.ResetMeetsTheInstanceInvariant := by
  unfold Obligations.ResetMeetsTheInstanceInvariant
  exact reset_instanceInv

/-! ### What a command writes -/

/-- R37: a command that is neither LOADKEY nor CLEARKEY leaves the instance. -/
theorem exec_keeps_instance {i : Instr} {s t : State} (h : exec i s = .next t) (hload : i ≠ .loadkey)
    (hclear : i ≠ .clearkey) : t.keystate = s.keystate ∧ t.rk = s.rk ∧ t.irk = s.irk := by
  refine exec_elim (P := fun t => t.keystate = s.keystate ∧ t.rk = s.rk ∧ t.irk = s.irk) h
    (fun e => ?_) (fun b => ?_) (fun e hi => ?_) (fun ks hi => ?_)
  · exact ⟨rfl, rfl, rfl⟩
  · exact ⟨rfl, rfl, rfl⟩
  · exact absurd hi (not_or.mpr ⟨hload, hclear⟩)
  · exact absurd hi hload

/-- R37: no command writes KEY or KEYLEN, or what the host has still to do and has read. -/
theorem exec_keeps_host_side {i : Instr} {s t : State} (h : exec i s = .next t) :
    t.key = s.key ∧ t.keylen = s.keylen ∧ t.pending = s.pending ∧ t.reads = s.reads := by
  exact exec_elim (P := fun t => t.key = s.key ∧ t.keylen = s.keylen ∧ t.pending = s.pending ∧ t.reads = s.reads) h
    (fun e => ⟨rfl, rfl, rfl, rfl⟩) (fun b => ⟨rfl, rfl, rfl, rfl⟩)
    (fun e _ => ⟨rfl, rfl, rfl, rfl⟩) (fun ks _ => ⟨rfl, rfl, rfl, rfl⟩)

/-- R91: LOADKEY with a KEYLEN that is no key size. -/
theorem exec_loadkey_of_no_size {s : State} (h : keySizeOf s.keylen = none) :
    exec .loadkey s = .next { destroyInstance s with err := .invalidKeySize } := by
  change execLoadkey s = _
  rw [execLoadkey, h]
  rfl

/-- R37: the commands that write no DATA are those of group 0x0_. -/
theorem exec_keeps_data {i : Instr} {s t : State} (h : exec i s = .next t) (hi : writesData i = false) :
    t.data = s.data := by
  cases i with
  | nop | clearkey => exact (congrArg State.data (Host.Outcome.next.inj h)).symm
  | loadkey =>
    cases hsize : keySizeOf s.keylen with
    | none => exact (congrArg State.data (Host.Outcome.next.inj ((exec_loadkey_of_no_size hsize).symm.trans h))).symm
    | some ks => exact (congrArg State.data (Host.Outcome.next.inj ((exec_loadkey_of_size hsize).symm.trans h))).symm
  | _ => exact Bool.noConfusion hi

/-- Settles O47: what a command can leave, by `exec_next`, has no other KEY, KEYLEN or host list, and no other instance
unless it is LOADKEY or CLEARKEY. -/
theorem commandsWriteOnlyTheirState : Obligations.CommandsWriteOnlyTheirState := by
  unfold Obligations.CommandsWriteOnlyTheirState
  refine ⟨exec_completes, fun i s t h => ?_⟩
  obtain ⟨hkey, hkeylen, hpending, hreads⟩ := exec_keeps_host_side h
  refine ⟨hkey, hkeylen, hpending, hreads, fun hi => exec_keeps_instance h ?_ ?_, exec_keeps_data h⟩
  · rintro rfl
    cases hi
  · rintro rfl
    cases hi

/-! ### The values of KEYSTATE -/

/-- R26: the host reaches the instance of a key size by writing its length to KEYLEN and LOADKEY to CMD. -/
theorem exists_reachable_loaded (ks : KeySize) : ∃ s, Reachable s ∧ s.keystate = KeyState.loaded ks := by
  let staged : State := { State.reset with keylen := BitVec.ofNat 32 (4 * ks.words) }
  have hchosen := Reachable.hostChooses _
    [.write 4 0x008 (BitVec.ofNat 32 (4 * ks.words)), .write 4 0x000 0x00000001] Reachable.reset
  have hstaged := Reachable.step _ { staged with pending := [.write 4 0x000 0x00000001] } hchosen rfl
  exact ⟨_, Reachable.step _ _ hstaged (exec_loadkey_of_size (s := staged) (keySizeOf_words ks)), rfl⟩

theorem exists_reachable_of_legal {k : KeyState} (h : k.legal) : ∃ s, Reachable s ∧ s.keystate = k := by
  obtain rfl | rfl | rfl | rfl := h
  · exact ⟨_, Reachable.reset, rfl⟩
  · exact exists_reachable_loaded .aes128
  · exact exists_reachable_loaded .aes192
  · exact exists_reachable_loaded .aes256

/-- R43: only a write to CMD launches a command, so no other write changes the instance. -/
theorem memWrite_keeps_keystate {n off : Nat} {v : Word} {s t : State} (h : memWrite n off v s = .next t)
    (hoff : off ≠ 0x000) : t.keystate = s.keystate := by
  obtain ⟨-, hcmd, -⟩ | ⟨a, -, -, -, rfl⟩ := memWrite_next h
  · exact absurd hcmd hoff
  · exact writeReg_keystate a v s

end Sys2Proof.Machine
end

section
/-! The STATUS word, and the values of KEYSTATE that it shows (10_state.md R26, R29). -/

namespace Sys2Proof.Machine

/-- A word whose bits at KV, NK, NR and ERR are the given ones, and 0 elsewhere (R29). -/
def HasStatusFields (w : Word) (kv : BitVec 1) (nk nr code : BitVec 4) : Prop :=
  w.extractLsb' 0 1 = kv ∧ w.extractLsb' 1 3 = 0 ∧ w.extractLsb' 4 4 = nk ∧ w.extractLsb' 8 4 = nr ∧
    w.extractLsb' 12 4 = code ∧ w.extractLsb' 16 16 = 0

theorem hasStatusFields_or {v w : Word} {kvV kvW : BitVec 1} {nkV nkW nrV nrW codeV codeW : BitVec 4}
    (hv : HasStatusFields v kvV nkV nrV codeV) (hw : HasStatusFields w kvW nkW nrW codeW) :
    HasStatusFields (v ||| w) (kvV ||| kvW) (nkV ||| nkW) (nrV ||| nrW) (codeV ||| codeW) :=
  and_map₂ extractLsb'_or_of_eq (and_map₂ extractLsb'_or_of_eq (and_map₂ extractLsb'_or_of_eq
    (and_map₂ extractLsb'_or_of_eq (and_map₂ extractLsb'_or_of_eq extractLsb'_or_of_eq)))) hv hw

/-- R29: each of the four values lands in its own field. -/
theorem hasStatusFields_parts : ∀ x : BitVec 4,
    HasStatusFields (x.setWidth 32 <<< 12) 0 0 0 x ∧ HasStatusFields (x.setWidth 32 <<< 8) 0 0 x 0 ∧
    HasStatusFields (x.setWidth 32 <<< 4) 0 x 0 0 ∧ ∀ b : BitVec 1, HasStatusFields (b.setWidth 32) b 0 0 0 := by
  unfold HasStatusFields
  decide

theorem statusWord_fields (s : State) :
    HasStatusFields (statusWord s) s.keystate.kvBit s.keystate.nk s.keystate.nr s.err.code := by
  obtain ⟨hcode, -⟩ := hasStatusFields_parts s.err.code
  obtain ⟨-, hnr, -⟩ := hasStatusFields_parts s.keystate.nr
  obtain ⟨-, -, hnk, hkv⟩ := hasStatusFields_parts s.keystate.nk
  have hor := hasStatusFields_or (hasStatusFields_or (hasStatusFields_or hcode hnr) hnk) (hkv s.keystate.kvBit)
  rw [statusWord]
  simpa using hor

/-- Settles O49: the fields are read off the word, and a 16-byte LOADKEY leaves (1, 4, 10) and ERR = OK. -/
theorem statusIsAssembledFromKeystateAndErr : Obligations.StatusIsAssembledFromKeystateAndErr := by
  unfold Obligations.StatusIsAssembledFromKeystateAndErr
  refine ⟨statusWord_fields, memRead_offset .status, memWrite_offset (a := .status) nofun, statusWord_reset,
    fun s hlen => ?_⟩
  refine ⟨_, exec_loadkey_of_size (ks := .aes128) (hlen ▸ rfl), ?_⟩
  change statusWord { State.reset with keystate := .loaded .aes128, err := .ok } = 0x00000A41
  decide

/-- Settles O44: KEYSTATE is legal wherever the instance invariant holds, which is in every reachable state; a LOADKEY of
each key size, and reset, reach the four values. -/
theorem keystateHoldsOnlyItsLegalValues : Obligations.KeystateHoldsOnlyItsLegalValues := by
  unfold Obligations.KeystateHoldsOnlyItsLegalValues
  refine ⟨fun s hreach => legal_of_instanceInv hreach.instanceInv, fun k hlegal => exists_reachable_of_legal hlegal,
    fun i s t h hload hclear => (exec_keeps_instance h hload hclear).1,
    fun n off v s t h hoff => memWrite_keeps_keystate h hoff, fun s => ?_, rfl⟩
  obtain ⟨hkv, -, hnk, hnr, -, -⟩ := statusWord_fields s
  exact ⟨hkv, hnk, hnr⟩

end Sys2Proof.Machine
end

section
/-! The field product as a ring multiplication, and the S-box as the affine map of the inverse (40_field_tables.md R63 to
R67). -/

namespace Sys2Proof

/-! ### The field product -/

theorem setWidth_nine_shiftLeft : ∀ a : Byte, (a.setWidth 9 <<< 1).setWidth 8 = a <<< 1 := by decide

/-- R63: dropping bit 8 of a shifted byte and adding 0x1B is adding 0x11B to the nine bits. -/
theorem xtime_eq_nine_bits (a : Byte) :
    xtime a = ((a.setWidth 9 <<< 1) ^^^ (if a.getLsbD 7 then 0x11B#9 else 0x000#9)).setWidth 8 := by
  rw [BitVec.setWidth_xor, setWidth_nine_shiftLeft, xtime]
  cases a.getLsbD 7 <;> rfl

/-- R64: after `k` turns the loop holds the multiples `x^i · a` for the bits below `k`, and `x^k · a`. -/
theorem foldl_gmulTurn_range (a b : Byte) (k : Nat) : (List.range k).foldl (gmulTurn b) (0x00, a) =
    ((List.range k).foldl (fun p i => if b.getLsbD i then p ^^^ xtime^[i] a else p) 0x00, xtime^[k] a) := by
  induction k with
  | zero => rfl
  | succ k ih =>
    rw [List.range_succ, List.foldl_concat, List.foldl_concat, ih, gmulTurn, Function.iterate_succ_apply']

/-- A map that commutes with XOR and with multiplication by `x` commutes with the loop of R64. -/
theorem foldl_gmulTurn_map {g : Byte → Byte} (hxor : ∀ x y, g (x ^^^ y) = g x ^^^ g y)
    (hxtime : ∀ x, g (xtime x) = xtime (g x)) (b : Byte) (l : List Nat) (p : Byte × Byte) :
    l.foldl (gmulTurn b) (g p.1, g p.2) = (l.foldl (gmulTurn b) p).map g g := by
  induction l generalizing p with
  | nil => rfl
  | cons i l ih =>
    rw [List.foldl_cons, List.foldl_cons, ← ih]
    congr 1
    simp only [gmulTurn, hxtime]
    split <;> simp only [hxor]

theorem gmul_zero_left (b : Byte) : gmul 0x00 b = 0x00 := by
  rw [show (0x00 : Byte) = 0x00 ^^^ 0x00 by decide, gmul_xor_left, BitVec.xor_self]
  rfl

/-- R64: `· • c` commutes with XOR and with multiplication by `x`, so it commutes with multiplying by `b`. -/
theorem gmul_right_comm (a b c : Byte) : gmul (gmul a b) c = gmul (gmul a c) b := by
  have hloop := congrArg Prod.fst (foldl_gmulTurn_map (g := fun x => gmul x c) (fun x y => gmul_xor_left x y c)
    (fun x => gmul_xtime_left x c) b (List.range 8) (0x00, a))
  rw [gmul_zero_left] at hloop
  exact hloop.symm

theorem gmul_comm (a b : Byte) : gmul a b = gmul b a :=
  calc gmul a b = gmul (gmul 0x01 a) b := by rw [gmul_one_left]
    _ = gmul (gmul 0x01 b) a := gmul_right_comm 0x01 a b
    _ = gmul b a := by rw [gmul_one_left]

theorem gmul_assoc (a b c : Byte) : gmul (gmul a b) c = gmul a (gmul b c) := by
  rw [gmul_comm a b, gmul_right_comm, gmul_comm]

theorem gmul_xor_right (a b c : Byte) : gmul a (b ^^^ c) = gmul a b ^^^ gmul a c := by
  rw [gmul_comm, gmul_xor_left, gmul_comm b, gmul_comm c]

/-- Settles O9: multiplication by a byte commutes with XOR and with multiplication by `x`, hence with the loop of R64,
from which the ring laws follow. -/
theorem gmulIsTheFieldProduct : Obligations.GmulIsTheFieldProduct := by
  unfold Obligations.GmulIsTheFieldProduct
  refine ⟨xtime_eq_nine_bits, by decide, by decide, by decide, fun a b => ?_, gmul_comm, gmul_assoc,
    fun a => ⟨?_, ?_⟩, gmul_xor_right, by decide⟩
  · rw [gmul, foldl_gmulTurn_range]
  · rw [gmul_comm, gmul_one_left]
  · rw [gmul_comm, gmul_zero_left]

/-! ### The S-box -/

theorem byte_finite : Finite Byte := Finite.of_injective BitVec.toFin fun _ _ => BitVec.eq_of_toFin_eq

theorem sbox_bijective : Function.Bijective sbox :=
  have := byte_finite
  Finite.injective_iff_bijective.mp (Function.LeftInverse.injective invSbox_sbox)

/-- R66: an injective table of as many entries as there are bytes takes every value. -/
theorem sbox_invSbox (a : Byte) : sbox (invSbox a) = a :=
  Function.LeftInverse.rightInverse_of_surjective invSbox_sbox sbox_bijective.surjective a

/-- R67: the inverse of the affine map, applied to the S-box: what R67 says is the field inverse. -/
def fieldInverse (a : Byte) : Byte :=
  (sbox a).rotateLeft 1 ^^^ (sbox a).rotateLeft 3 ^^^ (sbox a).rotateLeft 6 ^^^ 0x05

theorem affine_fieldInverse : ∀ a : Byte, affine (fieldInverse a) = sbox a := by decide +kernel

theorem gmul_fieldInverse : ∀ a : Byte, a ≠ 0x00 → gmul a (fieldInverse a) = 0x01 := by decide +kernel

/-- R66: a byte has at most one inverse. -/
theorem eq_of_gmul_eq_one {a b c : Byte} (hb : gmul a b = 0x01) (hc : gmul a c = 0x01) : c = b :=
  calc c = gmul (gmul a b) c := by rw [hb, gmul_one_left]
    _ = gmul (gmul a c) b := gmul_right_comm a b c
    _ = b := by rw [hc, gmul_one_left]

/-- R67: a bit of the affine map is the sum of five bits and the bit of 0x63. -/
theorem affine_getLsbD : ∀ b : Byte, ∀ i, i < 8 → (affine b).getLsbD i =
    (b.getLsbD i ^^ b.getLsbD ((i + 4) % 8) ^^ b.getLsbD ((i + 5) % 8) ^^ b.getLsbD ((i + 6) % 8) ^^
      b.getLsbD ((i + 7) % 8) ^^ (0x63 : Byte).getLsbD i) := by
  decide +kernel

/-- Settles O11: the printed table holds the affine map of a byte whose product with the index is 1 at each nonzero index,
and the ring laws leave no other such byte. -/
theorem sboxIsTheAffineMapOfTheInverse : Obligations.SboxIsTheAffineMapOfTheInverse := by
  unfold Obligations.SboxIsTheAffineMapOfTheInverse
  refine ⟨invSbox_sbox, sbox_invSbox, sbox_bijective,
    Function.bijective_iff_has_inverse.mpr ⟨sbox, sbox_invSbox, invSbox_sbox⟩, fun a => ⟨fieldInverse a, ?_, fun i hi => ?_⟩,
    by decide, by decide, by decide⟩
  · by_cases hzero : a = 0x00
    · exact .inl ⟨hzero, by rw [hzero]; decide⟩
    · have hinv := gmul_fieldInverse a hzero
      exact .inr ⟨hzero, hinv, fun b' hb' => eq_of_gmul_eq_one hinv hb'⟩
  · rw [← affine_fieldInverse, affine_getLsbD _ i hi]

/-! ### The printed tables -/

/-- R65: the other four printed tables, as the polynomials in `x` that their multipliers are. -/
theorem tableEntry_inverse_rows :
    (∀ a : Byte, tableEntry mul9Rows a = xtime (xtime (xtime a)) ^^^ a) ∧
    (∀ a : Byte, tableEntry mul11Rows a = xtime (xtime (xtime a)) ^^^ (xtime a ^^^ a)) ∧
    (∀ a : Byte, tableEntry mul13Rows a = xtime (xtime (xtime a)) ^^^ (xtime (xtime a) ^^^ a)) ∧
    ∀ a : Byte, tableEntry mul14Rows a = xtime (xtime (xtime a)) ^^^ (xtime (xtime a) ^^^ xtime a) := by
  decide +kernel

/-- Settles O10: each multiplier is a polynomial in `x`, and the entries of its table are compared with that polynomial's
values; the model's table function is the product by definition. -/
theorem printedMultiplyTablesAreGmul : Obligations.PrintedMultiplyTablesAreGmul := by
  unfold Obligations.PrintedMultiplyTablesAreGmul
  obtain ⟨h9, h11, h13, h14⟩ := tableEntry_inverse_rows
  have hrows : ∀ t ∈ printedMulTables, ∀ a, tableEntry t.2 a = gmul t.1 a := by
    rw [printedMulTables, List.forall_mem_cons, List.forall_mem_cons, List.forall_mem_cons, List.forall_mem_cons,
      List.forall_mem_cons, List.forall_mem_cons]
    refine ⟨fun a => ?_, fun a => ?_, fun a => ?_, fun a => ?_, fun a => ?_, fun a => ?_, List.forall_mem_nil _⟩
    · exact (tableEntry_mul2Rows_mul3Rows a).1
    · exact (tableEntry_mul2Rows_mul3Rows a).2
    · exact (h9 a).trans (gmul_nine a).symm
    · exact (h11 a).trans (gmul_eleven a).symm
    · exact (h13 a).trans (gmul_thirteen a).symm
    · exact (h14 a).trans (gmul_fourteen a).symm
  exact ⟨rfl, fun t ht a => ⟨hrows t ht a, rfl⟩⟩

end Sys2Proof
end

section
/-! The transforms by byte, and the laws they obey (41_cipher_core.md R71 to R76). -/

namespace Sys2Proof

/-! ### By byte -/

theorem shiftRows_at (s : Block) (r c : Fin 4) : (shiftRows s).at r c = s.at r (c + r) := Block.at_ofRows _ r c

theorem invShiftRows_at (s : Block) (r c : Fin 4) : (invShiftRows s).at r c = s.at r (c - r) := Block.at_ofRows _ r c

theorem addRoundKey_at (s k : Block) (r c : Fin 4) : (addRoundKey s k).at r c = s.at r c ^^^ k.at r c :=
  Block.at_ofRows _ r c

theorem addRoundKey_byte (s k : Block) (i : Fin 16) : (addRoundKey s k).byte i = s.byte i ^^^ k.byte i :=
  addRoundKey_at s k _ _

/-- R75: adding columns byte by byte adds their words. -/
theorem addRoundKey_word (s k : Block) (j : Fin 4) : (addRoundKey s k).word j = s.word j ^^^ k.word j := by
  rw [Block.word, Block.word, Block.word, addRoundKey_col, Column.toWord_xor, Column.xor]

/-- R72: P takes each index to the one `r` columns on in its row, and Q to the one `r` columns back. -/
theorem permutations_eq_rotations : ∀ i : Fin 16,
    (let p := ([0, 5, 10, 15, 4, 9, 14, 3, 8, 13, 2, 7, 12, 1, 6, 11] : List (Fin 16)).getD i.val 0
     Fin.ofNat 4 (p.val % 4) = Fin.ofNat 4 (i.val % 4) ∧
      Fin.ofNat 4 (p.val / 4) = Fin.ofNat 4 (i.val / 4) + Fin.ofNat 4 (i.val % 4)) ∧
    (let q := ([0, 13, 10, 7, 4, 1, 14, 11, 8, 5, 2, 15, 12, 9, 6, 3] : List (Fin 16)).getD i.val 0
     Fin.ofNat 4 (q.val % 4) = Fin.ofNat 4 (i.val % 4) ∧
      Fin.ofNat 4 (q.val / 4) = Fin.ofNat 4 (i.val / 4) - Fin.ofNat 4 (i.val % 4)) := by
  decide

theorem shiftRows_byte (s : Block) (i : Fin 16) : (shiftRows s).byte i =
    s.byte (([0, 5, 10, 15, 4, 9, 14, 3, 8, 13, 2, 7, 12, 1, 6, 11] : List (Fin 16)).getD i.val 0) := by
  obtain ⟨⟨hrow, hcol⟩, -⟩ := permutations_eq_rotations i
  rw [Block.byte, Block.byte, shiftRows_at, hrow, hcol]

theorem invShiftRows_byte (s : Block) (i : Fin 16) : (invShiftRows s).byte i =
    s.byte (([0, 13, 10, 7, 4, 1, 14, 11, 8, 5, 2, 15, 12, 9, 6, 3] : List (Fin 16)).getD i.val 0) := by
  obtain ⟨-, hrow, hcol⟩ := permutations_eq_rotations i
  rw [Block.byte, Block.byte, invShiftRows_at, hrow, hcol]

/-- R72: the difference of column numbers in `Fin 4` is the difference mod 4. -/
theorem column_sub : ∀ r c : Fin 4, c - r = ⟨(c.val + 4 - r.val) % 4, by omega⟩ := by decide

/-- Settles O13: the sum and the difference of column numbers are `Fin 4`'s own, which are mod 4. -/
theorem bytewiseTransformsFollowTheirFormulas : Obligations.BytewiseTransformsFollowTheirFormulas := by
  unfold Obligations.BytewiseTransformsFollowTheirFormulas
  refine ⟨fun s i => ⟨subBytes_byte s i, invSubBytes_byte s i⟩, fun s r c => ⟨shiftRows_at s r c, ?_⟩,
    fun s i => ⟨shiftRows_byte s i, invShiftRows_byte s i⟩, addRoundKey_byte, addRoundKey_word⟩
  rw [invShiftRows_at, column_sub]

/-! ### The laws -/

theorem subBytes_invSubBytes (s : Block) : subBytes (invSubBytes s) = s :=
  Block.ext_at fun r c => by rw [subBytes, invSubBytes, Block.at_map, Block.at_map, sbox_invSbox]

theorem shiftRows_invShiftRows (s : Block) : shiftRows (invShiftRows s) = s :=
  Block.ext_at fun r c => by rw [shiftRows_at, invShiftRows_at, add_sub_cancel_right]

theorem mixColumns_invMixColumns (s : Block) : mixColumns (invMixColumns s) = s :=
  Block.ext_col fun c => by
    rw [mixColumns, invMixColumns, Block.col_mapColumns, Block.col_mapColumns, mixColumn_invMixColumn]

theorem subBytes_shiftRows (s : Block) : subBytes (shiftRows s) = shiftRows (subBytes s) :=
  Block.ext_at fun r c => by rw [shiftRows_at, subBytes, subBytes, Block.at_map, Block.at_map, shiftRows_at]

theorem invSubBytes_invShiftRows (s : Block) : invSubBytes (invShiftRows s) = invShiftRows (invSubBytes s) :=
  Block.ext_at fun r c => by
    rw [invShiftRows_at, invSubBytes, invSubBytes, Block.at_map, Block.at_map, invShiftRows_at]

theorem mixColumns_addRoundKey (s k : Block) :
    mixColumns (addRoundKey s k) = addRoundKey (mixColumns s) (mixColumns k) :=
  Block.ext_col fun c => by
    rw [addRoundKey_col, mixColumns, mixColumns, mixColumns, Block.col_mapColumns, Block.col_mapColumns,
      Block.col_mapColumns, addRoundKey_col, mixColumn_xor]

/-- Settles O15: the laws hold at each byte or each column, by the laws of the tables, of `Fin 4` and of the matrices. -/
theorem transformLaws : Obligations.TransformLaws := by
  unfold Obligations.TransformLaws
  exact ⟨fun s => ⟨invSubBytes_subBytes s, subBytes_invSubBytes s⟩,
    fun s => ⟨invShiftRows_shiftRows s, shiftRows_invShiftRows s⟩,
    fun s => ⟨invMixColumns_mixColumns s, mixColumns_invMixColumns s⟩, addRoundKey_addRoundKey,
    fun s => ⟨subBytes_shiftRows s, invSubBytes_invShiftRows s⟩,
    fun s k => ⟨mixColumns_addRoundKey s k, invMixColumns_addRoundKey s k⟩⟩

end Sys2Proof
end

section
/-! The commands of opcode group 0x1_ that permute the rows and mix the columns of S (41_cipher_core.md R79 to R82). -/

namespace Sys2Proof

/-! ### Repeated transforms -/

theorem shiftRows_iterate_at (s : Block) (n : Nat) (r c : Fin 4) :
    (shiftRows^[n] s).at r c = s.at r (c + n • r) := by
  induction n generalizing c with
  | zero => simp
  | succ n ih =>
    rw [Function.iterate_succ_apply', shiftRows_at, ih, add_assoc, add_nsmul, one_nsmul, add_comm r]

/-- R79: four rotations by `r` are none, because columns are counted mod 4. -/
theorem shiftRows_iterate_four (s : Block) : shiftRows^[4] s = s :=
  Block.ext_at fun r c => by
    have hfour : 4 • r = 0 := by revert r; decide
    rw [shiftRows_iterate_at, hfour, add_zero]

/-- R80: rotating right once is rotating left three times. -/
theorem invShiftRows_eq_iterate_three (s : Block) : invShiftRows s = shiftRows^[3] s := by
  conv_lhs => rw [← shiftRows_iterate_four s, Function.iterate_succ_apply', invShiftRows_shiftRows]

theorem xtime_zero : xtime 0#8 = 0#8 := by decide

/-- R81: mixing a column of equal bytes adds each byte to itself twice, and 2 times it to 3 times it. -/
theorem mixColumn_of_equal (a : Byte) : mixColumn ⟨a, a, a, a⟩ = ⟨a, a, a, a⟩ := by
  simp [mixColumn_eq, Column.sum, xtime_zero]

theorem mixColumns_col (s : Block) (c : Fin 4) : (mixColumns s).col c = mixColumn (s.col c) :=
  Block.col_mapColumns mixColumn s c

theorem invMixColumns_col (s : Block) (c : Fin 4) : (invMixColumns s).col c = invMixColumn (s.col c) :=
  Block.col_mapColumns invMixColumn s c

namespace Machine

theorem exec_shiftrows (s : State) : exec .shiftrows s = .next { s with data := shiftRows s.data, err := .ok } := rfl

theorem exec_mixcolumns (s : State) : exec .mixcolumns s = .next { s with data := mixColumns s.data, err := .ok } := rfl

theorem exec_invmixcolumns (s : State) :
    exec .invmixcolumns s = .next { s with data := invMixColumns s.data, err := .ok } := rfl

theorem execAll_shiftrows (n : Nat) (s : State) : execAll (List.replicate (n + 1) .shiftrows) s =
    .next { s with data := shiftRows^[n + 1] s.data, err := .ok } := by
  induction n generalizing s with
  | zero => rfl
  | succ n ih =>
    rw [List.replicate_succ, execAll_cons (exec_shiftrows s), ih]
    rfl

/-- Settles O30: four rotations of a row of four bytes, and one rotation of four equal bytes, change nothing. -/
theorem shiftrowsRotatesRowsLeft : Obligations.ShiftrowsRotatesRowsLeft := by
  unfold Obligations.ShiftrowsRotatesRowsLeft
  refine ⟨by decide, exec_shiftrows,
    illegalForms_of_row (row := ⟨"SHIFTROWS", .n, 0x00000012, 0xFFFFFFFF⟩) (by decide), fun s c => ?_, fun s => ?_,
    fun s hconst => ?_, by decide⟩
  · rw [shiftRows_at, add_zero]
  · exact (execAll_shiftrows 3 s).trans (by rw [shiftRows_iterate_four])
  · have hsame : shiftRows s.data = s.data :=
      Block.ext_at fun r c => by rw [shiftRows_at, hconst, ← hconst r c]
    rw [exec_shiftrows, hsame]

/-- Settles O31: rotating right once is rotating left three times. -/
theorem invshiftrowsRotatesRowsRight : Obligations.InvshiftrowsRotatesRowsRight := by
  unfold Obligations.InvshiftrowsRotatesRowsRight
  refine ⟨by decide, fun s => rfl,
    illegalForms_of_row (row := ⟨"INVSHIFTROWS", .n, 0x00000013, 0xFFFFFFFF⟩) (by decide), fun s => ?_, by decide⟩
  exact Eq.trans (by rw [← invShiftRows_eq_iterate_three]; rfl) (execAll_shiftrows 2 s).symm

/-- Settles O32: a mixed column depends on that column alone, and one of equal bytes is a fixed point of the matrix. -/
theorem mixcolumnsMixesEveryColumn : Obligations.MixcolumnsMixesEveryColumn := by
  unfold Obligations.MixcolumnsMixesEveryColumn
  refine ⟨by decide, exec_mixcolumns,
    illegalForms_of_row (row := ⟨"MIXCOLUMNS", .n, 0x00000014, 0xFFFFFFFF⟩) (by decide), fun s c a h => ?_,
    fun s c h => ?_, fun s s' c h => ?_, by decide +kernel⟩
  · rw [mixColumns_col, h, mixColumn_of_equal]
  · rw [mixColumns_col, h, mixColumn_of_equal]
  · rw [mixColumns_col, mixColumns_col, h]

/-- Settles O33: the inverse matrix takes the mixed column of equal bytes, which is the column, back to it. -/
theorem invmixcolumnsUndoesMixcolumns : Obligations.InvmixcolumnsUndoesMixcolumns := by
  unfold Obligations.InvmixcolumnsUndoesMixcolumns
  refine ⟨by decide, exec_invmixcolumns,
    illegalForms_of_row (row := ⟨"INVMIXCOLUMNS", .n, 0x00000015, 0xFFFFFFFF⟩) (by decide), fun s c a h => ?_,
    fun s => ?_, by decide +kernel⟩
  · rw [invMixColumns_col, h]
    conv_lhs => rw [← mixColumn_of_equal a, invMixColumn_mixColumn]
  · rw [execAll_pair (exec_mixcolumns s) (exec_invmixcolumns _), invMixColumns_mixColumns]

end Machine

end Sys2Proof
end

section
/-! The key expansion is prefix-stable, and an AES-128 round key fixes the next one and the one before it
(40_field_tables.md R70; 42_key_schedule.md R86, R88, R93). -/

namespace Sys2Proof

open Machine

/-! ### Prefix stability -/

/-- R88: the round keys up to `n` need the words up to `4n + 3` only. -/
theorem roundKeyOf_of_prefix {ks : KeySize} {key : List Byte} {n r : Nat} (hlen : key.length = 4 * ks.words)
    (hn : n ≤ ks.rounds) (hr : r ≤ n) :
    roundKeyOf (expandNewestFirst ks.words (keyWordsOf key) (4 * (n + 1) - ks.words)).reverse r =
      (keyExpansion ks key).getD r zeroBlock := by
  rw [keyExpansion_getD (hr.trans hn), roundKeyOf, roundKeyOf]
  congr 1
  funext j
  have hwords := keyWordsOf_length_of_key hlen
  have hlast : 4 * (n + 1) ≤ 4 * (ks.rounds + 1) := Nat.mul_le_mul_left 4 (Nat.succ_le_succ hn)
  have hlt : 4 * r + j.val < 4 * (n + 1) :=
    (Nat.add_lt_add_left j.isLt _).trans_le (Nat.mul_le_mul_left 4 (Nat.succ_le_succ hr))
  exact (expandNewestFirst_reverse_getD (Nat.sub_le_sub_right hlast _) (hwords ▸ hlt.trans_le le_add_tsub)).symm

/-! ### One AES-128 round key and the next -/

theorem Block.ext_words {s t : Block} (h0 : s.word 0 = t.word 0) (h1 : s.word 1 = t.word 1)
    (h2 : s.word 2 = t.word 2) (h3 : s.word 3 = t.word 3) : s = t := by
  have hcol {j : Fin 4} (h : s.word j = t.word j) : s.col j = t.col j := by
    rw [← Column.ofWord_word, h, Column.ofWord_word]
  rw [← Block.ofColumns_col s, ← Block.ofColumns_col t, Block.ofColumns, Block.ofColumns, hcol h0, hcol h1, hcol h2,
    hcol h3]

theorem scheduleTemp_first (r : Nat) (t : Word) :
    scheduleTemp 4 (4 * (r + 1)) t = subWord (rotWord t) ^^^ rconWord (r + 1) := by
  rw [scheduleTemp, if_pos (Nat.mul_mod_right 4 (r + 1)), Nat.mul_div_cancel_left _ (by decide)]

theorem scheduleTemp_later {i : Nat} (h : i % 4 ≠ 0) (t : Word) : scheduleTemp 4 i t = t := by
  rw [scheduleTemp, if_neg h, if_neg (by omega)]

/-- R86: the recurrence for AES-128 as one round key `k` and the next, `k'`: each word is the one at its place in `k`
plus the word before it, or what that word contributes where it is the last of `k`. -/
def FollowsRoundKey (k' k : Block) (r : Nat) : Prop :=
  k'.word 0 = k.word 0 ^^^ (subWord (rotWord (k.word 3)) ^^^ rconWord (r + 1)) ∧
  k'.word 1 = k.word 1 ^^^ k'.word 0 ∧ k'.word 2 = k.word 2 ^^^ k'.word 1 ∧ k'.word 3 = k.word 3 ^^^ k'.word 2

/-- R86: consecutive round keys packed from a sequence of words that obeys AES-128's recurrence. -/
theorem followsRoundKey_of_recurrence {w : Nat → Word} {k k' : Block} {r : Nat}
    (hrec : ∀ i, i < 4 * (r + 1) → w (i + 4) = w i ^^^ scheduleTemp 4 (i + 4) (w (i + 3)))
    (hk : ∀ j : Fin 4, k.word j = w (4 * r + j.val)) (hk' : ∀ j : Fin 4, k'.word j = w (4 * (r + 1) + j.val)) :
    FollowsRoundKey k' k r := by
  have hfour (j : Fin 4) : k'.word j = k.word j ^^^ scheduleTemp 4 (4 * r + j.val + 4) (w (4 * r + j.val + 3)) := by
    rw [hk', hk, Nat.mul_succ, Nat.add_right_comm, hrec (4 * r + j.val) (Nat.add_lt_add_left j.isLt _)]
  have hlater {i j : Fin 4} (hij : j.val = i.val + 1) : k'.word j = k.word j ^^^ k'.word i := by
    have hmod : (4 * r + j.val + 4) % 4 = i.val + 1 := by
      rw [Nat.add_mod_right, Nat.mul_add_mod, Nat.mod_eq_of_lt j.isLt, hij]
    have hindex : 4 * r + j.val + 3 = 4 * (r + 1) + i.val := by
      rw [hij]
      exact Nat.add_right_comm (4 * r) i.val 4
    rw [hfour j, scheduleTemp_later (hmod ▸ Nat.succ_ne_zero _), hindex, hk' i]
  refine ⟨?_, hlater (i := 0) rfl, hlater (i := 1) rfl, hlater (i := 2) rfl⟩
  exact (hfour 0).trans (by rw [← scheduleTemp_first, hk 3]; rfl)

/-- R88: for AES-128 the recurrence goes from round key to round key. -/
theorem keyExpansion_followsRoundKey {key : List Byte} {r : Nat} (hlen : key.length = 16) (hr : r ≤ 9) :
    FollowsRoundKey ((keyExpansion .aes128 key).getD (r + 1) zeroBlock) ((keyExpansion .aes128 key).getD r zeroBlock) r :=
  followsRoundKey_of_recurrence
    (fun _ hi => scheduleWord_recurrence (ks := .aes128) hlen (Nat.le_add_left 4 _)
      (Nat.add_lt_add_right (hi.trans_le (Nat.mul_le_mul_left 4 (Nat.succ_le_succ hr))) 4))
    (keyExpansion_getD_word (ks := .aes128) (Nat.le_succ_of_le hr))
    (keyExpansion_getD_word (ks := .aes128) (Nat.succ_le_succ hr))

/-- R88: one round key and its number fix the next. -/
theorem FollowsRoundKey.unique {k k' k'' : Block} {r : Nat} (h' : FollowsRoundKey k' k r)
    (h'' : FollowsRoundKey k'' k r) : k' = k'' := by
  obtain ⟨h0, h1, h2, h3⟩ := h'
  obtain ⟨g0, g1, g2, g3⟩ := h''
  have e0 : k'.word 0 = k''.word 0 := h0.trans g0.symm
  have e1 : k'.word 1 = k''.word 1 := by rw [h1, e0, g1]
  have e2 : k'.word 2 = k''.word 2 := by rw [h2, e1, g2]
  have e3 : k'.word 3 = k''.word 3 := by rw [h3, e2, g3]
  exact Block.ext_words e0 e1 e2 e3

/-! ### The previous round key -/

/-- R93: the words of the previous round key. -/
theorem prevRoundKey_words (k : Block) (i : Nat) :
    (prevRoundKey k i).word 3 = k.word 3 ^^^ k.word 2 ∧ (prevRoundKey k i).word 2 = k.word 2 ^^^ k.word 1 ∧
    (prevRoundKey k i).word 1 = k.word 1 ^^^ k.word 0 ∧
    (prevRoundKey k i).word 0 = k.word 0 ^^^ subWord (rotWord (k.word 3 ^^^ k.word 2)) ^^^ rconWord (i + 1) :=
  ⟨Column.toWord_ofWord _, Column.toWord_ofWord _, Column.toWord_ofWord _, Column.toWord_ofWord _⟩

/-- R88, R93: the previous round key of the one that follows `k` is `k`, every word that was added being added again. -/
theorem FollowsRoundKey.prevRoundKey_eq {k k' : Block} {r : Nat} (h : FollowsRoundKey k' k r) :
    prevRoundKey k' r = k := by
  obtain ⟨h0, h1, h2, h3⟩ := h
  obtain ⟨p3, p2, p1, p0⟩ := prevRoundKey_words k' r
  refine Block.ext_words ?_ ?_ ?_ ?_
  · rw [p0, h3, xor_cancel_right, h0, xor_assoc (_ ^^^ _), xor_cancel_right]
  · rw [p1, h1, xor_cancel_right]
  · rw [p2, h2, xor_cancel_right]
  · rw [p3, h3, xor_cancel_right]

theorem prevRoundKey_keyExpansion {key : List Byte} {i : Nat} (hlen : key.length = 16) (hi : i ≤ 9) :
    prevRoundKey ((keyExpansion .aes128 key).getD (i + 1) zeroBlock) i = (keyExpansion .aes128 key).getD i zeroBlock :=
  (keyExpansion_followsRoundKey hlen hi).prevRoundKey_eq

/-- Settles O19: a longer expansion has the shorter one's words first; consecutive AES-128 round keys are related word by
word, which fixes the second by the first and lets `prevRoundKey` go back. -/
theorem scheduleIsPrefixStableAndInvertible : Obligations.ScheduleIsPrefixStableAndInvertible := by
  unfold Obligations.ScheduleIsPrefixStableAndInvertible
  refine ⟨fun ks key n hlen hn r hr => roundKeyOf_of_prefix hlen hn hr, fun key key' r hlen hlen' hr heq => ?_,
    fun key i hlen hi => prevRoundKey_keyExpansion hlen hi⟩
  have hfollows := keyExpansion_followsRoundKey hlen hr
  rw [heq] at hfollows
  exact hfollows.unique (keyExpansion_followsRoundKey hlen' hr)

end Sys2Proof
end

section
/-! PREVRK and the round constants it and the expansion consume (40_field_tables.md R70; 42_key_schedule.md R94). -/

namespace Sys2Proof.Machine

section
variable {i : Nat} {s : State}

theorem exec_prevrk_of_le (hi : i ≤ 9) :
    exec (.prevrk i) s = .next { s with data := prevRoundKey s.data i, err := .ok } := by
  rw [exec, execPrevrk, if_neg (Nat.not_lt.mpr hi), commitData_eq]

theorem exec_prevrk_of_gt (hi : i > 9) : exec (.prevrk i) s = .next { s with err := .badIndex } := by
  rw [exec, execPrevrk, if_pos hi, raiseCmdError_eq]

/-- R94: PREVRK `n - 1`, ..., PREVRK 0 take round key `n` of an AES-128 key back to round key 0. -/
theorem execAll_prevrk_to_zero {key : List Byte} (hlen : key.length = 16) {n : Nat} (hn : n ≤ 9) (s : State)
    (hdata : s.data = (keyExpansion .aes128 key).getD (n + 1) zeroBlock) :
    execAll ((List.range (n + 1)).reverse.map Instr.prevrk) s =
      .next { s with data := (keyExpansion .aes128 key).getD 0 zeroBlock, err := .ok } := by
  induction n generalizing s with
  | zero =>
    rw [List.range_one, List.reverse_singleton, List.map_singleton, execAll_cons (exec_prevrk_of_le hn), hdata,
      prevRoundKey_keyExpansion hlen hn]
    rfl
  | succ n ih =>
    rw [List.range_succ, List.reverse_append, List.reverse_singleton, List.singleton_append, List.map_cons,
      execAll_cons (exec_prevrk_of_le hn), hdata, prevRoundKey_keyExpansion hlen hn, ih (Nat.le_of_succ_le hn) _ rfl]

end

/-- Settles O43: one PREVRK commits the words of `prevRoundKey`, which takes each AES-128 round key to the one before. -/
theorem prevrkStepsBackOneRoundKey : Obligations.PrevrkStepsBackOneRoundKey := by
  unfold Obligations.PrevrkStepsBackOneRoundKey
  refine ⟨by decide, fun i s hi => ⟨_, exec_prevrk_of_le hi, ?_⟩, fun i s hi => exec_prevrk_of_gt hi,
    illegalForms_of_row (row := ⟨"PREVRK", .i, 0x00000040, 0xFFFFF0FF⟩) (by decide), fun key s hlen hdata => ?_, ?_⟩
  · obtain ⟨h3, h2, h1, h0⟩ := prevRoundKey_words s.data i
    exact ⟨h3, h2, h1, by rw [h3]; exact h0⟩
  · exact execAll_prevrk_to_zero hlen (n := 9) (by decide) s hdata
  · decide +kernel

/-- Settles O12: the constants are `xPower` by definition; which ones a key size consumes is counted over its indices. -/
theorem roundConstantsArePowersOfX : Obligations.RoundConstantsArePowersOfX := by
  unfold Obligations.RoundConstantsArePowersOfX
  refine ⟨rfl, fun i hi => ?_, rfl, fun i => rfl, fun ks => by cases ks <;> rfl, fun k i => ?_,
    fun i s hi => exec_prevrk_of_gt hi⟩
  · obtain ⟨k, rfl⟩ := Nat.exists_eq_add_of_le' hi
    rfl
  · obtain ⟨-, -, -, h0⟩ := prevRoundKey_words k i
    exact h0

end Sys2Proof.Machine
end

section
/-! The ciphers over each other's keys and over the T-tables, and ENCRYPT (43_cipher_driver.md R98 to R100, R106). -/

namespace Sys2Proof

open Machine

/-! ### The ciphers as functions -/

/-- R87: the inverse schedule of a list of round keys, as the keys of an inverse cipher. -/
theorem invertsKeys_inverseSchedule (rks : List Block) (nr : Nat) : InvertsKeys
    (fun r => (inverseSchedule rks nr).getD r zeroBlock) (fun r => rks.getD r zeroBlock) nr :=
  fun _ hj => inverseSchedule_getD rks hj

/-- Settles O21: rounds 1 to `n - 1` are a fold over their numbers, and the inverse schedule inverts the cipher's keys. -/
theorem equivalentInverseCipherUndoesTheCipher : Obligations.EquivalentInverseCipherUndoesTheCipher := by
  unfold Obligations.EquivalentInverseCipherUndoesTheCipher
  refine ⟨fun s keys n _ => ?_, fun ks rks s _ => ?_⟩
  · rw [eqInvCipher, roundsFrom_eq_foldl]
  · exact eqInvCipher_cipherBy (invertsKeys_inverseSchedule rks ks.rounds) ks.one_le_rounds false s

theorem fullRoundT_word (s k : Block) (c : Fin 4) : (fullRoundT s k).word c =
    tTable0 (s.at 0 c) ^^^ tTable1 (s.at 1 (c + 1)) ^^^ tTable2 (s.at 2 (c + 2)) ^^^ tTable3 (s.at 3 (c + 3)) ^^^
      k.word c := Block.word_ofWords _ c

/-- Settles O22: the four tables are the matrix's columns times the S-box, so a round by lookup is a round by bytes, and
so are the ciphers made of them. -/
theorem tTableRoundEqualsTheByteRound : Obligations.TTableRoundEqualsTheByteRound := by
  unfold Obligations.TTableRoundEqualsTheByteRound
  refine ⟨fun x => ⟨rfl, tTable1_eq x, tTable2_eq x, tTable3_eq x, rfl, rfl, rfl⟩, by decide, by decide, by decide,
    by decide, by decide, by decide, by decide, fullRoundT_word, fullRoundT_eq_fullRound, fun s keys n _ => ⟨?_, ?_⟩⟩
  · rw [cipherBy, roundsFrom_eq_foldl]
    rfl
  · exact cipherBy_eq_cipherBy_false true s keys n

theorem block_finite : Finite Block :=
  have := byte_finite
  Finite.of_injective (fun (s : Block) (r c : Fin 4) => s.at r c) fun _ _ h => Block.ext_at fun r c => congrFun₂ h r c

/-- R98: the cipher is undone by the inverse cipher, so it is injective on the finitely many blocks, hence onto, and it
undoes the inverse cipher too. -/
theorem cipherBy_eqInvCipher {ikeys keys : Nat → Block} {n : Nat} (h : InvertsKeys ikeys keys n) (hn : 1 ≤ n)
    (f : Bool) (s : Block) : cipherBy f (eqInvCipher s ikeys n) keys n = s := by
  have := block_finite
  have hundoes : Function.LeftInverse (eqInvCipher · ikeys n) (cipherBy f · keys n) := eqInvCipher_cipherBy h hn f
  exact hundoes.rightInverse_of_surjective (Finite.surjective_of_injective hundoes.injective) s

namespace Machine

section
variable {s : State}

/-- R107: in a state that holds a key, of any size, ENCRYPT undoes DECRYPT. -/
theorem execAll_decrypt_encrypt (hinv : s.instanceInv) (hkv : s.keystate.kv = true) (f : Bool) :
    execAll [.decrypt, .encrypt f] s = .next { s with err := .ok } := by
  obtain ⟨ks, key, hkey⟩ := exists_holdsKey_of_loaded hinv hkv
  have hcount : roundCount s = ks.rounds := nr_of_holdsKey hkey
  have hround := cipherBy_eqInvCipher (invertsKeys_of_holdsKey hkey) ks.one_le_rounds false s.data
  rw [← hcount] at hround
  have hencrypt := exec_encrypt_of_loaded
    (s := { s with data := eqInvCipher s.data (invRoundKey s) (roundCount s), err := .ok }) hkv f
  rw [execAll_pair (exec_decrypt_of_loaded hkv) hencrypt]
  exact congrArg (fun b => Host.Outcome.next { s with data := b, err := .ok }) hround

/-- R106: ENCRYPT is the sequence of its round commands. -/
theorem exec_encrypt_eq_sequence (hkv : s.keystate.kv = true) (f : Bool) : exec (.encrypt f) s =
    execAll (.addrk 0 :: ((List.range' 1 (roundCount s - 1)).map (fun r => Instr.round r f) ++
      [.finalround (roundCount s)])) s := by
  have hforward {mk : Nat → Instr} {g : Block → Block → Block} (hexec : ∀ r t, exec (mk r) t = withRoundKey g r t) :
      AppliesKey mk g (roundKey s) s := appliesKey_of_checks hkv hexec fun _ _ => rfl
  have haddrk : AppliesKey .addrk addRoundKey (roundKey s) s := hforward fun _ _ => rfl
  have hround : AppliesKey (fun r => .round r f) fullRound (roundKey s) s := hforward fun r t => exec_round r f t
  have hfinal : AppliesKey .finalround finalRound (roundKey s) s := hforward fun _ _ => rfl
  rw [execAll_cipher_sequence haddrk hround hfinal, exec_encrypt_of_loaded hkv]
  rfl

end

/-- Settles O40: ENCRYPT is the byte-oriented cipher for either F, and its round commands each apply one step of it; the
example is the known-answer vector. -/
theorem encryptRunsAllRounds : Obligations.EncryptRunsAllRounds := by
  unfold Obligations.EncryptRunsAllRounds
  refine ⟨by decide, fun f s hkv => exec_encrypt_of_loaded hkv f, fun f s hkv => exec_of_no_key rfl hkv,
    illegalForms_of_row (row := ⟨"ENCRYPT", .f, 0x00000030, 0xFFFEFFFF⟩) (by decide),
    fun f s hkv _ => exec_encrypt_eq_sequence hkv f, fun f => ?_⟩
  rw [execAll_loadkey_stagedExample, exec_encrypt_of_loaded rfl, okData_ok]
  exact congrArg some (cipherBy_loadedExample _)

/-- Settles O48: every reachable state meets the instance invariant, under which the two commands undo each other. -/
theorem encryptAndDecryptAreInverse : Obligations.EncryptAndDecryptAreInverse := by
  unfold Obligations.EncryptAndDecryptAreInverse
  exact fun s f hreach hkv =>
    ⟨execAll_encrypt_decrypt hreach.instanceInv hkv f, execAll_decrypt_encrypt hreach.instanceInv hkv f⟩

end Machine

end Sys2Proof
end

section
/-! Host accesses in sequence: reads, repeated stores and commands, and whole runs (20_memory.md R46; 30_encoding.md R59;
60_exceptions.md R115; 70_reset_and_hazards.md R135). -/

namespace Sys2Proof.Machine

section
variable {s t u : State}

/-- R48: an access that completes is followed by the rest of the list. -/
theorem performAll_cons {e : HostEvent} {rest : List HostEvent} (h : performEvent e s = .next t) :
    performAll (e :: rest) s = performAll rest t := by
  change (match performEvent e s with | .next t => performAll rest t | .fault r => .fault r | .refused r => .refused r) = _
  rw [h]

theorem performAll_pair {d e : HostEvent} (hd : performEvent d s = .next t) (he : performEvent e t = .next u) :
    performAll [d, e] s = .next u := by
  rw [performAll_cons hd, performAll_cons he]
  rfl

/-! ### Reads and stores -/

theorem performEvent_read {n off : Nat} {v : Word} (h : memRead n off s = .ok v) :
    performEvent (.read n off) s = .next { s with reads := s.reads ++ [v] } := by
  rw [performEvent, h]

/-- R42: what a register reads as does not depend on what the host has still to do and has read. -/
theorem readReg_of_host_lists (a : RegAddr) (s : State) (pending : List HostEvent) (reads : List Word) :
    readReg a { s with pending := pending, reads := reads } = readReg a s := by
  cases a <;> rfl

theorem memRead_of_host_lists (n off : Nat) (s : State) (pending : List HostEvent) (reads : List Word) :
    memRead n off { s with pending := pending, reads := reads } = memRead n off s := by
  simp only [memRead, readReg_of_host_lists]

/-- R39: the registers that hold what is written to them. -/
def RegAddr.isStored : RegAddr → Bool
  | .keylen => true
  | .data _ => true
  | .key _ => true
  | .cmd => false
  | .status => false
  | .rk _ _ => false
  | .irk _ _ => false

/-- R39: KEYLEN, DATA and KEY are the stored registers. -/
theorem selectReg_isStored : ∀ off, off < 0x040 → off = 0x008 ∨ (0x010 ≤ off ∧ off < 0x040 ∧ off % 4 = 0) →
    (selectReg 4 off).any RegAddr.isStored = true := by
  decide

theorem exists_stored_regAddr {off : Nat} (h : off = 0x008 ∨ (0x010 ≤ off ∧ off < 0x040 ∧ off % 4 = 0)) :
    ∃ a : RegAddr, a.isStored = true ∧ off = a.offset := by
  have hlt : off < 0x040 := h.elim (by rintro rfl; decide) fun ⟨_, hhigh, _⟩ => hhigh
  have hstored := selectReg_isStored off hlt h
  obtain ⟨a, hselect, ha⟩ := (Option.any_eq_true _ _).mp hstored
  exact ⟨a, ha, (selectReg_eq_some.mp hselect).2⟩

theorem setCol_setCol (b : Block) (j : Fin 4) (c : Column) : (b.setCol j c).setCol j c = b.setCol j c :=
  Block.ext_col fun k => by
    simp only [Block.col_setCol]
    split <;> rfl

/-- R46: storing a word again stores nothing new. -/
theorem writeReg_writeReg (a : RegAddr) (v : Word) (s : State) : writeReg a v (writeReg a v s) = writeReg a v s := by
  cases a with
  | data j => exact congrArg (fun b => { s with data := b }) (setCol_setCol s.data j _)
  | key j => exact congrArg (fun k => { s with key := k }) (Vector.set_set ..)
  | cmd | status | keylen | rk | irk => rfl

/-- R46: a stored word reads back. -/
theorem readReg_writeReg {a : RegAddr} (h : a.isStored = true) (v : Word) (s : State) :
    readReg a (writeReg a v s) = v := by
  cases a with
  | keylen => rfl
  | data j =>
    have hcol : (s.data.setCol j (Column.ofWord v)).col j = Column.ofWord v := by rw [Block.col_setCol, if_pos rfl]
    exact (congrArg Column.toWord hcol).trans (Column.toWord_ofWord v)
  | key j => exact Vector.getElem_set_self j.isLt
  | cmd | status | rk | irk => cases h

theorem performEvent_store {a : RegAddr} (h : a.isStored = true) (v : Word) (s : State) :
    performEvent (.write 4 a.offset v) s = .next (writeReg a v s) :=
  memWrite_offset (by rintro rfl; cases h) v s

/-- Settles O54: what a register reads as does not depend on the host's lists, a store of the same word changes nothing,
and a command word written is a command performed. -/
theorem readsHaveNoSideEffect : Obligations.ReadsHaveNoSideEffect := by
  unfold Obligations.ReadsHaveNoSideEffect
  refine ⟨fun s n off v h => ⟨performEvent_read h, ?_⟩, fun s off v hoff => ?_, fun s w => ?_⟩
  · rw [performAll_pair (performEvent_read h)
      (performEvent_read ((memRead_of_host_lists n off s s.pending (s.reads ++ [v])).trans h)), List.append_assoc]
    rfl
  · obtain ⟨a, hstored, rfl⟩ := exists_stored_regAddr hoff
    refine ⟨writeReg a v s, performEvent_store hstored v s, ?_, ?_⟩
    · rw [performEvent_store hstored, writeReg_writeReg]
    · rw [memRead_offset, readReg_writeReg hstored]
  · obtain ⟨t, ht⟩ := execute_completes w s
    obtain ⟨u, hu⟩ := execute_completes w t
    exact ⟨t, u, ht, hu, performAll_pair ht hu⟩

/-! ### Steps that run a command -/

/-- R59: a step whose oldest access writes a command word executes the word. -/
theorem step_command {w : Word} {rest : List HostEvent} (h : s.pending = .write 4 0x000 w :: rest) :
    step s = execute w { s with pending := rest } := step_event h

theorem execute_of_decode {w : Word} {i : Instr} (h : decode w = .ok i) (s : State) : execute w s = exec i s := by
  rw [execute, h]

theorem decode_of_decodeTableWord {nbits w : Nat} {i : Instr} (h : decodeTableWord nbits w = some i) :
    decode (tableWord nbits w) = .ok i := by
  unfold decodeTableWord at h
  split at h
  case h_1 j hdec => rw [hdec, Option.some.inj h]
  case h_2 => cases h

/-- Settles O7: the step takes the access from the queue and executes the word, which is the table word's where it was put
there by `withFetchWord`. -/
theorem stepRunsTheDecodedCommand : Obligations.StepRunsTheDecodedCommand := by
  unfold Obligations.StepRunsTheDecodedCommand
  refine ⟨fun s rest w i hp hdec => ?_, fun s rest w e hp hdec => ?_, fun s nbits w i hdec => ?_, fun s => step_idle⟩
  · rw [step_command hp, execute_of_decode hdec]
  · rw [step_command hp, execute, hdec, raiseCmdError_eq]
  · rw [withFetchWord_eq, step_command rfl, presentCommand_taken, execute_of_decode (decode_of_decodeTableWord hdec)]

/-! ### Whole runs -/

/-- R37, R43: a command changes neither what the host has still to do nor what it has read. -/
theorem execute_keeps_host_lists {w : Word} (h : execute w s = .next t) : t.pending = s.pending ∧ t.reads = s.reads := by
  obtain ⟨i, -, h⟩ | ⟨e, -, rfl⟩ := execute_next h
  · obtain ⟨-, -, hpending, hreads⟩ := exec_keeps_host_side h
    exact ⟨hpending, hreads⟩
  · exact ⟨rfl, rfl⟩

/-- R135: the accesses that return a word. -/
def HostEvent.isRead : HostEvent → Bool
  | .read _ _ => true
  | .write _ _ _ => false
  | .reset => false

/-- R115: an access that raises no bus error completes. -/
theorem performEvent_completes_of_accepted {e : HostEvent} (h : e.accepted = true) (s : State) :
    Completes (performEvent e s) := by
  have hgood {n off : Nat} (hsome : (selectReg n off).isSome = true) : ¬ BadAccess n off := fun hbad => by
    rw [selectReg_eq_none_iff_badAccess.mpr hbad] at hsome
    cases hsome
  cases e with
  | read n off => exact performEvent_completes_of_not_badAccess (hgood h) (v := 0) (.inl rfl) s
  | write n off v => exact performEvent_completes_of_not_badAccess (hgood h) (.inr rfl) s
  | reset => exact completes_next _

/-- R135: from `s` to `t` the host has read one word more for each read among the accesses `l`. -/
def AddsReads (l : List HostEvent) (s t : State) : Prop :=
  ∃ more, t.reads = s.reads ++ more ∧ more.length = (l.filter HostEvent.isRead).length

theorem addsReads_of_no_read {l : List HostEvent} (hl : l.filter HostEvent.isRead = []) (h : t.reads = s.reads) :
    AddsReads l s t :=
  ⟨[], by rw [h, List.append_nil], (congrArg List.length hl).symm⟩

theorem AddsReads.append {l l' : List HostEvent} (h : AddsReads l s t) (h' : AddsReads l' t u) :
    AddsReads (l ++ l') s u := by
  obtain ⟨more, hmore, hlen⟩ := h
  obtain ⟨more', hmore', hlen'⟩ := h'
  exact ⟨more ++ more', by rw [hmore', hmore, List.append_assoc],
    by rw [List.length_append, hlen, hlen', List.filter_append, List.length_append]⟩

/-- R42, R126: an access takes nothing from what the host has still to do. -/
theorem performEvent_keeps_pending {e : HostEvent} (h : performEvent e s = .next t) : t.pending = s.pending := by
  refine performEvent_elim (P := fun t => t.pending = s.pending) h (fun n off v _ => ?_) (fun w _ h => ?_)
    (fun a v _ => ?_) (fun _ => ?_)
  · rfl
  · exact (execute_keeps_host_lists h).1
  · exact writeReg_pending a v s
  · rfl

theorem performEvent_addsReads {e : HostEvent} (h : performEvent e s = .next t) : AddsReads [e] s t := by
  refine performEvent_elim (P := AddsReads [e] s) h (fun n off v he => ?_) (fun w he h => ?_) (fun a v he => ?_)
    (fun he => ?_)
  · exact ⟨[v], rfl, he ▸ rfl⟩
  · exact addsReads_of_no_read (he ▸ rfl) (execute_keeps_host_lists h).2
  · exact addsReads_of_no_read (he ▸ rfl) (writeReg_reads a v s)
  · exact addsReads_of_no_read (he ▸ rfl) rfl

theorem run_succ {M : Host.Core} {s t : M.State} {k : Nat} (h : M.step s = .next t) : M.run (k + 1) s = M.run k t := by
  change (match M.step s with | .next t => M.run k t | .fault r => .fault r | .refused r => .refused r) = _
  rw [h]

/-- R135: a run of as many steps as there are accesses performs them all, when none of them is a bus error. -/
theorem run_pending {l : List HostEvent} (hl : s.pending = l) (hsafe : ∀ e ∈ l, e.accepted = true) :
    ∃ t, Sys2Proof.core.run l.length s = .next t ∧ t.pending = [] ∧ AddsReads l s t := by
  induction l generalizing s with
  | nil => exact ⟨s, rfl, hl, addsReads_of_no_read rfl rfl⟩
  | cons e rest ih =>
    obtain ⟨he, hrest⟩ := List.forall_mem_cons.mp hsafe
    obtain ⟨u, hu⟩ := performEvent_completes_of_accepted he { s with pending := rest }
    obtain ⟨t, hrun, hdone, hreads⟩ := ih (performEvent_keeps_pending hu) hrest
    exact ⟨t, (run_succ (M := Sys2Proof.core) ((step_event hl).trans hu)).trans hrun, hdone,
      (performEvent_addsReads hu).append hreads⟩

end

/-- Settles O56: by induction on the accesses, each of which completes and leaves the rest of them. -/
theorem safeRunsComplete : Obligations.SafeRunsComplete := by
  unfold Obligations.SafeRunsComplete
  intro s hsafe
  obtain ⟨t, hrun, hdone, more, hmore, hlen⟩ := run_pending rfl hsafe
  refine ⟨t, more, hrun, hdone, hmore, hlen.trans (congrArg List.length ?_)⟩
  exact List.filter_congr fun e _ => by cases e <;> rfl

end Sys2Proof.Machine
end

section
/-! The port handshake: reset in any cycle, and a command held for its latency (70_reset_and_hazards.md R125, R126). -/

namespace Sys2Proof.Machine

/-! ### Reset -/

theorem clockEdge_reset {p : PortIn} (h : p.rst = true) (b : PortState) : clockEdge p b = .ok (resetCycle p b) := by
  rw [clockEdge, if_pos h]

theorem memRead_reset {n off : Nat} (h : ¬ BadAccess n off) (s : State) : memRead n off (resetCore s) = .ok 0 := by
  obtain ⟨a, rfl, rfl⟩ := exists_regAddr_of_not_badAccess h
  rw [resetCore, memRead_of_host_lists, memRead_offset, readReg_reset]

theorem finishAccess_read {n off : Nat} {s : State} {v : Word} (h : memRead n off s = .ok v) :
    finishAccess (.read n off) s = .ok (⟨{ s with reads := s.reads ++ [v] }, none⟩, .completed (some v)) := by
  have hdata : readData (.read n off) s = some v := by
    change (match memRead n off s with | .ok v => some v | .error _ => none) = _
    rw [h]
  rw [finishAccess, performEvent_read h, hdata]

/-- R125: a read that is no bus error completes in the cycle it is presented, with its word on `rdata`. -/
theorem clockEdge_read {q : PortIn} {s : State} {v : Word} (hrst : q.rst = false) (hreq : q.req = true)
    (hwe : q.we = false) (h : memRead (bytesOfSize q.size) q.addr.toNat s = .ok v) :
    clockEdge q ⟨s, none⟩ = .ok (⟨{ s with reads := s.reads ++ [v] }, none⟩, .completed (some v)) := by
  have hevent : q.event = .read (bytesOfSize q.size) q.addr.toNat := by rw [PortIn.event, hwe]
  have hcmd : q.writesCommand = false := by
    rw [PortIn.writesCommand, hwe]
    rfl
  rw [clockEdge_free hrst hreq hcmd, hevent, finishAccess_read h]

/-- Settles O58: a reset cycle looks at nothing but `rst`, and leaves a free bus and a core in which every register
reads 0. -/
theorem resetAbandonsTheCommandInProgress : Obligations.ResetAbandonsTheCommandInProgress := by
  unfold Obligations.ResetAbandonsTheCommandInProgress
  intro p b hrst
  refine ⟨_, _, clockEdge_reset hrst b, ?_, rfl, rfl, fun q hq hreq hwe hgood => ?_⟩
  · cases p.req with
    | true => exact .inl rfl
    | false => exact .inr rfl
  · exact ⟨_, clockEdge_read hq hreq hwe (memRead_reset hgood b.core)⟩

/-! ### A held command -/

section
variable {w : Word} {s t : State}

theorem holdPorts_succ {p : PortIn} {k : Nat} {b b' b'' : PortState} {out : Response} {outs : List Response}
    (hedge : clockEdge p b = .ok (b', out)) (hrest : holdPorts p k b' = .ok (b'', outs)) :
    holdPorts p (k + 1) b = .ok (b'', out :: outs) := by
  change (match clockEdge p b with
    | .error r => Except.error r
    | .ok (b', out) =>
      match holdPorts p k b' with
      | .error r => Except.error r
      | .ok (b'', outs) => Except.ok (b'', out :: outs)) = _
  rw [hedge]
  dsimp only
  rw [hrest]

/-- R125: a command word presented to a free bus begins to wait. -/
theorem clockEdge_commandPorts_free (w : Word) (s : State) : clockEdge (commandPorts w) ⟨s, none⟩ =
    .ok (⟨s, some ⟨w, Config.latencyBeyondOne w⟩⟩, .waiting) := rfl

theorem clockEdge_commandPorts_held (w : Word) (n : Nat) (s : State) :
    clockEdge (commandPorts w) ⟨s, some ⟨w, n⟩⟩ = heldCycle (commandPorts w) ⟨w, n⟩ s := rfl

theorem commandPorts_keep_request (w : Word) : ((commandPorts w).req && (commandPorts w).writesCommand &&
    (commandPorts w).wdata == w) = true := beq_self_eq_true w

theorem clockEdge_commandPorts_waiting (w : Word) (n : Nat) (s : State) :
    clockEdge (commandPorts w) ⟨s, some ⟨w, n + 1⟩⟩ = .ok (⟨s, some ⟨w, n⟩⟩, .waiting) := by
  rw [clockEdge_commandPorts_held, heldCycle, if_pos (commandPorts_keep_request w)]

theorem clockEdge_commandPorts_last (h : execute w s = .next t) :
    clockEdge (commandPorts w) ⟨s, some ⟨w, 0⟩⟩ = .ok (⟨t, none⟩, .completed none) := by
  have hevent : performEvent (commandPorts w).event s = .next t := h
  rw [clockEdge_commandPorts_held, heldCycle, if_pos (commandPorts_keep_request w)]
  simp only [finishAccess, hevent]
  rfl

/-- R125: a held command waits as long as the host holds it and cycles are left, and the core does not change. -/
theorem holdPorts_waiting (w : Word) (s : State) (k left : Nat) :
    holdPorts (commandPorts w) k ⟨s, some ⟨w, left + k⟩⟩ = .ok (⟨s, some ⟨w, left⟩⟩, List.replicate k .waiting) := by
  induction k with
  | zero => rfl
  | succ k ih =>
    rw [List.replicate_succ]
    exact holdPorts_succ (clockEdge_commandPorts_waiting w (left + k) s) ih

/-- R125: a held command is performed whole in the cycle after its last waiting one. -/
theorem holdPorts_to_completion (h : execute w s = .next t) (left : Nat) :
    holdPorts (commandPorts w) (left + 1) ⟨s, some ⟨w, left⟩⟩ =
      .ok (⟨t, none⟩, List.replicate left .waiting ++ [.completed none]) := by
  induction left with
  | zero => exact holdPorts_succ (clockEdge_commandPorts_last h) rfl
  | succ n ih =>
    rw [List.replicate_succ, List.cons_append]
    exact holdPorts_succ (clockEdge_commandPorts_waiting w n s) ih

end

/-- Settles O59: the first cycle begins the wait, and each cycle after it uses up one of those left. -/
theorem commandIsHeldForItsLatency : Obligations.CommandIsHeldForItsLatency := by
  unfold Obligations.CommandIsHeldForItsLatency
  refine ⟨fun w => Nat.succ_pos _, fun w s t h => ?_, fun w s k hpos hle => ?_⟩
  · rw [Config.latency, List.replicate_succ, List.cons_append]
    exact holdPorts_succ (clockEdge_commandPorts_free w s) (holdPorts_to_completion h _)
  · obtain ⟨k, rfl⟩ := Nat.exists_eq_add_of_le' hpos
    rw [Config.latency] at hle ⊢
    obtain ⟨left, hleft⟩ := Nat.exists_eq_add_of_le' (Nat.le_of_succ_le_succ hle)
    rw [hleft, Nat.add_assoc, Nat.add_sub_cancel, List.replicate_succ]
    refine holdPorts_succ (clockEdge_commandPorts_free w s) ?_
    rw [hleft]
    exact holdPorts_waiting w s k left

end Sys2Proof.Machine
end
